-- ==== Sys2Proof/Word.lean ====
section
/-! DEFINITION. The machine's word: a cell value, 32-bit two's complement (spec R10, decision D1). -/

namespace Sys2Proof

/-- A cell value: `W`-bit two's complement with `W = 32` (R10, D1). Every register that holds a cell value, every
cell of memory and every operand is one. `BitVec`'s `+` and `-` are the wrapping sum and difference of R167, and
`BitVec.toInt` is the signed value that every comparison of the machine looks at (R10). -/
abbrev Word := BitVec 32

end Sys2Proof
end

