-- ==== Sys2Proof/Syntax.lean ====
section
/-! DEFINITION. The instruction set as syntax: one constructor per row of the opcode map (spec R106), with the whole
operand cell as its argument where the format has one (R101, R102, R105). -/

namespace Sys2Proof

/-- The 31 instructions of R106, in the table's order. A format `A` instruction carries its operand cell, whole and
unchanged (R105); a format `Z` instruction carries nothing. -/
inductive Instr where
  /-- opcode 1, R140 -/
  | loadValue (value : Word)
  /-- opcode 2, R141 -/
  | loadAddr (addr : Word)
  /-- opcode 3, R142 -/
  | loadInd (addr : Word)
  /-- opcode 4, R143 -/
  | loadIdxX (addr : Word)
  /-- opcode 5, R144 -/
  | loadIdxY (addr : Word)
  /-- opcode 6, R145 -/
  | loadSpX
  /-- opcode 7, R146 -/
  | store (addr : Word)
  /-- opcode 8, R150 -/
  | get
  /-- opcode 9, R151 -/
  | put (port : Word)
  /-- opcode 10, R155 -/
  | addX
  /-- opcode 11, R156 -/
  | addY
  /-- opcode 12, R157 -/
  | subX
  /-- opcode 13, R158 -/
  | subY
  /-- opcode 14, R159 -/
  | copyToX
  /-- opcode 15, R160 -/
  | copyFromX
  /-- opcode 16, R161 -/
  | copyToY
  /-- opcode 17, R162 -/
  | copyFromY
  /-- opcode 18, R163 -/
  | copyToSp
  /-- opcode 19, R164 -/
  | copyFromSp
  /-- opcode 20, R170 -/
  | jump (addr : Word)
  /-- opcode 21, R171 -/
  | jumpIfEqual (addr : Word)
  /-- opcode 22, R172 -/
  | jumpIfNotEqual (addr : Word)
  /-- opcode 23, R173 -/
  | call (addr : Word)
  /-- opcode 24, R174 -/
  | ret
  /-- opcode 25, R165 -/
  | incX
  /-- opcode 26, R166 -/
  | decX
  /-- opcode 27, R180 -/
  | push
  /-- opcode 28, R181 -/
  | pop
  /-- opcode 29, R185 -/
  | int
  /-- opcode 30, R186 -/
  | iret
  /-- opcode 50, `End`, R187 -/
  | halt
deriving DecidableEq, Repr

end Sys2Proof
end

