-- ==== Sys2Proof/Decode.lean ====
section
/-! DEFINITION. Decoding, total on any list of cells and rejecting by name (spec R100 to R107), and the encoder
written from the same opcode map (R106). -/

namespace Sys2Proof

/-- Why a list of cells is no instruction. -/
inductive DecodeError where
  /-- there is no first cell -/
  | noOpcode
  /-- the first cell is none of the 31 opcode numbers (R107) -/
  | illegalOpcode (value : Word)
  /-- the opcode takes an operand (R102) and there is no second cell -/
  | missingOperand (opcode : Word)
deriving DecidableEq, Repr

/-- What an opcode alone says: the instruction (format `Z`, R101), or the instruction once the operand cell is known
(format `A`, R102). The opcode fixes the length (R104). -/
inductive Shape where
  | zero (i : Instr)
  | one (mk : Word → Instr)

/-- The opcode map of R106. The match is on the whole cell (R103); anything else is unrecognised (R107). -/
def decodeOpcode (op : Word) : Option Shape :=
  match op.toNat with
  | 1 => some (.one .loadValue)
  | 2 => some (.one .loadAddr)
  | 3 => some (.one .loadInd)
  | 4 => some (.one .loadIdxX)
  | 5 => some (.one .loadIdxY)
  | 6 => some (.zero .loadSpX)
  | 7 => some (.one .store)
  | 8 => some (.zero .get)
  | 9 => some (.one .put)
  | 10 => some (.zero .addX)
  | 11 => some (.zero .addY)
  | 12 => some (.zero .subX)
  | 13 => some (.zero .subY)
  | 14 => some (.zero .copyToX)
  | 15 => some (.zero .copyFromX)
  | 16 => some (.zero .copyToY)
  | 17 => some (.zero .copyFromY)
  | 18 => some (.zero .copyToSp)
  | 19 => some (.zero .copyFromSp)
  | 20 => some (.one .jump)
  | 21 => some (.one .jumpIfEqual)
  | 22 => some (.one .jumpIfNotEqual)
  | 23 => some (.one .call)
  | 24 => some (.zero .ret)
  | 25 => some (.zero .incX)
  | 26 => some (.zero .decX)
  | 27 => some (.zero .push)
  | 28 => some (.zero .pop)
  | 29 => some (.zero .int)
  | 30 => some (.zero .iret)
  | 50 => some (.zero .halt)
  | _ => none

/-- The instruction at the head of a list of cells, with the cells after it (R100). The opcode is judged before the
operand is looked at (R104). -/
def decode : List Word → Except DecodeError (Instr × List Word)
  | [] => .error .noOpcode
  | op :: rest =>
    match decodeOpcode op, rest with
    | none, _ => .error (.illegalOpcode op)
    | some (.zero i), _ => .ok (i, rest)
    | some (.one mk), opnd :: rest' => .ok (mk opnd, rest')
    | some (.one _), [] => .error (.missingOperand op)

/-- The opcode number of an instruction (R106). -/
def opcodeOf : Instr → Word
  | .loadValue _ => 1
  | .loadAddr _ => 2
  | .loadInd _ => 3
  | .loadIdxX _ => 4
  | .loadIdxY _ => 5
  | .loadSpX => 6
  | .store _ => 7
  | .get => 8
  | .put _ => 9
  | .addX => 10
  | .addY => 11
  | .subX => 12
  | .subY => 13
  | .copyToX => 14
  | .copyFromX => 15
  | .copyToY => 16
  | .copyFromY => 17
  | .copyToSp => 18
  | .copyFromSp => 19
  | .jump _ => 20
  | .jumpIfEqual _ => 21
  | .jumpIfNotEqual _ => 22
  | .call _ => 23
  | .ret => 24
  | .incX => 25
  | .decX => 26
  | .push => 27
  | .pop => 28
  | .int => 29
  | .iret => 30
  | .halt => 50

/-- The operand cell of a format `A` instruction; none for format `Z` (R101, R102). -/
def operandOf : Instr → Option Word
  | .loadValue v | .loadAddr v | .loadInd v | .loadIdxX v | .loadIdxY v | .store v | .put v
  | .jump v | .jumpIfEqual v | .jumpIfNotEqual v | .call v => some v
  | .loadSpX | .get | .addX | .addY | .subX | .subY | .copyToX | .copyFromX | .copyToY | .copyFromY
  | .copyToSp | .copyFromSp | .ret | .incX | .decX | .push | .pop | .int | .iret | .halt => none

/-- The cells of an instruction: the opcode, then the operand where there is one (R100). -/
def encode (i : Instr) : List Word := opcodeOf i :: (operandOf i).toList

/-- The cells of the instruction whose bits, numbered as the opcode table numbers them, are the low `nbits` bits of
`w` and zeros above: bits 31 to 0 are the first cell (address `p`), bits 63 to 32 the second (address `p + 1`). -/
def tableCells (nbits w : Nat) : List Word :=
  [BitVec.ofNat 32 (w % 2 ^ nbits), BitVec.ofNat 32 ((w % 2 ^ nbits) / 2 ^ 32)]

/-- The instruction the decoder reads from an instruction of the opcode table given by its bits. -/
def decodeTableWord (nbits w : Nat) : Option Instr :=
  match decode (tableCells nbits w) with
  | .ok (i, _) => some i
  | .error _ => none

end Sys2Proof
end

