-- ==== Sys2Proof/Config.lean ====
section
/-! DEFINITION. The parameters of one machine (spec R8) with their reference values, and the values the spec leaves
open: the random draws of opcode 8 (R150), what the console and the report show (R152), the wire's sentinels (R72). -/

namespace Sys2Proof

/-- The implementation parameters of R8, fixed for one machine. `SYS_STACK_TOP` is not a field of its own, since R9
fixes it to `memorySize`; the initial image is `boot`'s argument (R240). -/
structure Config where
  /-- `MEMORY_SIZE`: the number of cells; valid addresses are `[0, memorySize)` (R61). -/
  memorySize : Word
  /-- `USER_LIMIT`: the first address of system space (R62). -/
  userLimit : Word
  /-- `TIMER_VECTOR`: the entry address of the timer handler (R204). -/
  timerVector : Word
  /-- `TRAP_VECTOR`: the entry address of the trap handler (R204). -/
  trapVector : Word
  /-- `RESET_SP` (R38). -/
  resetSp : Word
  /-- `RESET_PC` (R38). -/
  resetPc : Word
  /-- `timeConstraint`: the timer period, supplied once at startup and immutable (R30). -/
  timeConstraint : Word
deriving DecidableEq, Repr

namespace Config

/-- The reference sizing of R8. R8 gives `timeConstraint` no reference value ("supplied per run"); 1000 is the value
the spec's own test vectors take (DESIGN CHOICE, log entry 3). -/
def reference : Config where
  memorySize := 2000
  userLimit := 1000
  timerVector := 1000
  trapVector := 1500
  resetSp := 1000
  resetPc := 0
  timeConstraint := 1000

/-- What opcode 8 draws (R150, D19), less one: a free value. It has no body, so nothing is known of it but its range,
and it is applied to the count of draws made so far, so no two draws are related (log entry 5). -/
opaque freeDraw : Nat → Fin 100

/-- `CHAR_RENDER` of R152: what the console shows for a character code. The spec leaves it open; free, no body
(log entry 6). -/
opaque charRender : Word → String

/-- The text of the report of a bad port number (R152: "the source does not say where the report goes or what it
says"); free, no body (log entry 6). -/
opaque badPortText : Word → String

/-- `WRITE_SENTINEL` of R72, counted downward from `-1`; free, no body (log entry 10). -/
opaque writeSentinelIndex : Fin 2147483648

/-- `TERMINATE_SENTINEL` of R72, counted downward from `-1` among the negative values that are left; free, no body
(log entry 10). -/
opaque terminateSentinelIndex : Fin 2147483647

/-- `WRITE_SENTINEL`: negative (R72). -/
def writeSentinel : Word := BitVec.ofInt 32 (-1 - (writeSentinelIndex.val : Int))

/-- `TERMINATE_SENTINEL`: negative, and not `WRITE_SENTINEL` (R72). -/
def terminateSentinel : Word :=
  BitVec.ofInt 32 (if terminateSentinelIndex.val < writeSentinelIndex.val then -1 - (terminateSentinelIndex.val : Int)
    else -2 - (terminateSentinelIndex.val : Int))

end Config

end Sys2Proof
end

