-- ==== Sys2Proof/Machine/State.lean ====
section
/-! DEFINITION. The machine's state as plain data (spec 10_state.md, R20 to R37), the reasons a step ends the run
(R215, R129), and the state after reset (R38). -/

namespace Sys2Proof.Machine

/-- The privilege modes (R27, R224). -/
inductive Mode where
  | user
  | kernel
deriving DecidableEq, Repr

/-- The two interrupt sources, the `kind` of the entry sequence (R201, R204). -/
inductive IntKind where
  | timer
  | trap
deriving DecidableEq, Repr

/-- The fatal conditions of R215. -/
inductive FaultKind where
  /-- a User-mode access at or above `USER_LIMIT`, found by the Engine before the request is sent (R216) -/
  | protectionFault
  /-- a permitted access outside `[0, MEMORY_SIZE)`, found by the Memory Service (R217) -/
  | boundsFault
  /-- a fetched cell that is no opcode (R218) -/
  | illegalOpcode
  /-- in the source's list of fatal conditions; nothing raises it (R219) -/
  | invalidInterruptCode
deriving DecidableEq, Repr

/-- The life-cycle state `run` (R32). Both `halted` and `faulted` are terminal. -/
inductive Run where
  | running
  | halted
  | faulted (kind : FaultKind) (info : Word)
deriving DecidableEq, Repr

/-- What opcode 9 appends to the console (R152). -/
inductive ConsoleEvent where
  | putInt (value : Word)
  | putChar (value : Word)
deriving DecidableEq, Repr

/-- A report of a non-fatal error (R152, R221). -/
inductive DiagnosticEvent where
  | badPort (operand : Word)
deriving DecidableEq, Repr

/-- A request the Engine sends to the Memory Service (R71), as the discriminated message of R72. -/
inductive BusRequest where
  | read (address : Word)
  | write (address value : Word)
  | terminate
deriving DecidableEq, Repr

/-- The cell array of the Memory Service (R35): the cells that differ from `0`, as address and value pairs with
strictly rising addresses. The unit is the cell, which the spec makes indivisible (R61, R64; log entry 1); `Memory.read`
says what an unlisted address reads as (log entry 2). -/
abbrev Memory := List (Nat × Word)

/-- All the state of the machine: the Engine's registers (R20 to R26), its control state (R27 to R32), the Memory
Service's cells (R35), the streams and the bus trace an observer sees (R14, R36), and the parameters of this machine
(R8), which no step changes (R30; log entry 4). -/
@[ext]
structure State where
  /-- program counter (R21) -/
  pc : Word
  /-- stack pointer: the address of the cell most recently pushed (R22) -/
  sp : Word
  /-- the cell most recently fetched as an opcode (R23) -/
  ir : Word
  /-- accumulator (R24) -/
  ac : Word
  /-- general register and index (R25) -/
  x : Word
  /-- general register and index (R26) -/
  y : Word
  /-- privilege mode (R27) -/
  mode : Mode
  /-- `interruptsEnabled` (R28) -/
  ie : Bool
  /-- instructions counted since the last timer interrupt (R29) -/
  timer : Word
  /-- the interrupt entry not yet returned from; `none` is the spec's `None` (R31) -/
  handler : Option IntKind
  /-- life-cycle state (R32) -/
  run : Run
  /-- the cell array (R35) -/
  mem : Memory
  /-- the console stream, oldest event first (R152) -/
  console : List ConsoleEvent
  /-- the diagnostic stream, oldest event first (R152) -/
  diagnostic : List DiagnosticEvent
  /-- the requests sent to the Memory Service, oldest first (R87) -/
  bus : List BusRequest
  /-- the model's own: how many random draws have been made (log entry 5) -/
  drawCount : Nat
  /-- the parameters of this machine (R8), `timeConstraint` among them (R30) -/
  cfg : Config
deriving DecidableEq, Repr

/-- Why a step answers no next state. -/
inductive Fault where
  /-- A fatal condition of R215: the `raise` of R220. Raised by a fetch, an operand fetch, a data access or decode.
  It carries what R220 gives: the kind, the offending address or opcode, and the state at the `raise`, with
  `run = Faulted(kind, info)`. Safe: the spec says the machine ends here. -/
  | fatal (kind : FaultKind) (info : Word) (final : State)
  /-- There is no step from a state that is not `Running` (R120, R129). Raised by `step` alone, with the terminal
  state itself. Safe: the spec gives no step either. -/
  | notRunning (final : State)
deriving DecidableEq, Repr

/-- Why an instruction has no meaning here. -/
inductive Refusal where
  /-- An instruction without a meaning. No arm of `exec` answers it. Safe. -/
  | notModelled (mnemonic : String)
deriving DecidableEq, Repr

/-- The machine right after reset (R38): the reference sizing, User mode, interrupts enabled, and no program, so that
every cell reads 0. `IR = 0` is the spec's own decision D15. -/
def State.reset : State where
  pc := Config.reference.resetPc
  sp := Config.reference.resetSp
  ir := 0
  ac := 0
  x := 0
  y := 0
  mode := .user
  ie := true
  timer := 0
  handler := none
  run := .running
  mem := []
  console := []
  diagnostic := []
  bus := []
  drawCount := 0
  cfg := Config.reference

end Sys2Proof.Machine
end

