-- ==== Sys2Proof/WellFormed.lean ====
section
/-! DEFINITION. The checks on what is given to the machine from outside: instructions (spec R105, R108), the
configuration and the initial image (R9). -/

namespace Sys2Proof

/-- Every term of `Instr` is well-formed: a format `A` operand may be any cell value and "has no illegal values at
decode" (R105, R108), and the types allow no other operand. There is therefore no ill-formed instruction to refuse. -/
abbrev Instr.wf (_ : Instr) : Prop := True

/-- The constraints of R9 on a configuration. `W >= 12` and `SYS_STACK_TOP = MEMORY_SIZE` hold by construction. -/
abbrev Config.wf (c : Config) : Prop :=
  6 ≤ c.memorySize.toInt ∧
  0 ≤ c.userLimit.toInt ∧ c.userLimit.toInt ≤ c.memorySize.toInt ∧
  c.userLimit.toInt ≤ c.timerVector.toInt ∧ c.timerVector.toInt < c.memorySize.toInt ∧
  c.userLimit.toInt ≤ c.trapVector.toInt ∧ c.trapVector.toInt < c.memorySize.toInt ∧
  0 ≤ c.resetSp.toInt ∧ 0 ≤ c.resetPc.toInt

/-- "`IMAGE` has exactly `MEMORY_SIZE` cells" (R9). That each is a `W`-bit value is its type. -/
abbrev imageWf (c : Config) (image : List Word) : Prop := (image.length : Int) = c.memorySize.toInt

end Sys2Proof
end

