-- ==== Sys2Proof/Machine/Ops.lean ====
section
/-! DEFINITION. The named operations over memory and registers that every meaning is made of: the cell array, the
two checks and the two access primitives (spec R73 to R76), the stack primitives (R77, R78), the streams (R152), the
random draw (R150), and taking an interrupt and returning from one (R204, R186). -/

namespace Sys2Proof.Machine

/-- The outcome of an operation that ends in an `α` or ends the run. -/
abbrev Out (α : Type) := Host.Outcome α Fault Refusal

/-- First one operation, then, where it did not end the run, the next. -/
def andThen {α β : Type} (o : Out α) (k : α → Out β) : Out β :=
  match o with
  | .next a => k a
  | .fault f => .fault f
  | .refused r => .refused r

/-! ### Writing one register

The registers take any value of their type: none is hard-wired, aliased or banked (R20). -/

/-- `PC <- v` (R21). -/
def setPc (v : Word) (s : State) : State := { s with pc := v }

/-- `SP <- v` (R22). -/
def setSp (v : Word) (s : State) : State := { s with sp := v }

/-- `IR <- v` (R23). -/
def setIr (v : Word) (s : State) : State := { s with ir := v }

/-- `AC <- v` (R24). -/
def setAc (v : Word) (s : State) : State := { s with ac := v }

/-- `X <- v` (R25). -/
def setX (v : Word) (s : State) : State := { s with x := v }

/-- `Y <- v` (R26). -/
def setY (v : Word) (s : State) : State := { s with y := v }

/-- `mode <- v` (R27). -/
def setMode (v : Mode) (s : State) : State := { s with mode := v }

/-- `IE <- v` (R28). -/
def setIe (v : Bool) (s : State) : State := { s with ie := v }

/-- `timer <- v` (R29). -/
def setTimer (v : Word) (s : State) : State := { s with timer := v }

/-- `handler <- v` (R31). -/
def setHandler (v : Option IntKind) (s : State) : State := { s with handler := v }

/-- `run <- v` (R32). -/
def setRun (v : Run) (s : State) : State := { s with run := v }

/-- `mem <- v` (R35). -/
def setMem (v : Memory) (s : State) : State := { s with mem := v }

/-- `raise kind(info)` (R220): the run ends here, and the state is as it was at this point. -/
def raise {α : Type} (kind : FaultKind) (info : Word) (s : State) : Out α :=
  .fault (.fatal kind info (setRun (.faulted kind info) s))

/-- The spec's own numbers for the fault kinds (R215, its decision D14). -/
def FaultKind.code : FaultKind → Nat
  | .protectionFault => 1
  | .boundsFault => 2
  | .illegalOpcode => 3
  | .invalidInterruptCode => 4

/-! ### The cell array -/

/-- What an address that memory does not list reads as. The spec gives no content for a cell the image does not
mention (N14, D24); 0 is the convention of its test vectors (DESIGN CHOICE, log entry 2). -/
def Memory.fill : Word := 0

/-- The cell at an address (R68). -/
def Memory.read : Memory → Nat → Word
  | [], _ => Memory.fill
  | (k, v) :: m, a => if k = a then v else Memory.read m a

/-- The memory without its entry for `a`. -/
def Memory.erase : Memory → Nat → Memory
  | [], _ => []
  | (k, v) :: m, a => if k = a then Memory.erase m a else (k, v) :: Memory.erase m a

/-- The memory with an entry for `a` put before the first larger address. -/
def Memory.insert : Memory → Nat → Word → Memory
  | [], a, v => [(a, v)]
  | (k, u) :: m, a, v => if a < k then (a, v) :: (k, u) :: m else (k, u) :: Memory.insert m a v

/-- "overwrites the cell unconditionally" (R67), keeping the canonical form. -/
def Memory.write (m : Memory) (a : Nat) (v : Word) : Memory :=
  if v = Memory.fill then m.erase a else (m.erase a).insert a v

/-- The canonical form of a memory of `size` cells: addresses strictly rising and inside the array, and no entry equal
to what an unlisted address reads as. -/
abbrev Memory.wf (size : Int) (m : Memory) : Prop :=
  m.Pairwise (fun c d => c.1 < d.1) ∧ ∀ c ∈ m, (c.1 : Int) < size ∧ c.2 ≠ Memory.fill

/-! ### The protocol and the two checks -/

/-- A request is sent to the Memory Service and joins the bus trace (R87). -/
def request (r : BusRequest) (s : State) : State := { s with bus := s.bus ++ [r] }

/-- The permission check of R73 refuses an access at `a`: User mode and `a >= USER_LIMIT`, signed. -/
abbrev denied (s : State) (a : Word) : Prop := s.mode = .user ∧ s.cfg.userLimit.toInt ≤ a.toInt

/-- The bounds check of R67 and R68 passes: `a` is in `[0, MEMORY_SIZE)`, signed. -/
abbrev inBounds (s : State) (a : Word) : Prop := 0 ≤ a.toInt ∧ a.toInt < s.cfg.memorySize.toInt

/-- An access at `a` passes both checks (R74). -/
abbrev accessible (s : State) (a : Word) : Prop := ¬ denied s a ∧ inBounds s a

/-- `MemRead(a, 1)` (R75): the permission check, the request, the bounds check, the reply. -/
def memRead (a : Word) (s : State) : Out (Word × State) :=
  if denied s a then raise .protectionFault a s
  else if inBounds s a then .next (s.mem.read a.toNat, request (.read a) s)
  else raise .boundsFault a (request (.read a) s)

/-- `MemWrite(a, 1, v)` (R76): as `memRead`, and the cell changes only when both checks passed. -/
def memWrite (a v : Word) (s : State) : Out State :=
  if denied s a then raise .protectionFault a s
  else if inBounds s a then .next (setMem (s.mem.write a.toNat v) (request (.write a v) s))
  else raise .boundsFault a (request (.write a v) s)

/-! ### The stack -/

/-- `Push(v)` (R77): decrement, then write; full-descending. -/
def push (v : Word) (s : State) : Out State := memWrite (s.sp - 1) v (setSp (s.sp - 1) s)

/-- `Pop()` (R78): read, then increment. -/
def pop (s : State) : Out (Word × State) :=
  andThen (memRead s.sp s) fun r => .next (r.1, setSp (r.2.sp + 1) r.2)

/-! ### Registers, streams, draws -/

/-- The advance of `PC` over an instruction of `n` cells that is no control transfer (R126). -/
def advance (n : Word) (s : State) : State := setPc (s.pc + n) s

/-- `Emit(console, e)` (R152). -/
def emitConsole (e : ConsoleEvent) (s : State) : State := { s with console := s.console ++ [e] }

/-- `Emit(diagnostic, e)` (R152). -/
def emitDiagnostic (e : DiagnosticEvent) (s : State) : State := { s with diagnostic := s.diagnostic ++ [e] }

/-- The `n`-th value of `Draw(1, 100)` (R150): a free value in `[1, 100]`. -/
def drawValue (n : Nat) : Word := BitVec.ofNat 32 ((Config.freeDraw n).val + 1)

/-- One more draw has been made (log entry 5). -/
def countDraw (s : State) : State := { s with drawCount := s.drawCount + 1 }

/-! ### Interrupts -/

/-- The entry address of a handler, a constant of the Engine (R204 step 5, R208). -/
def vector (c : Config) : IntKind → Word
  | .timer => c.timerVector
  | .trap => c.trapVector

/-- `InterruptEntry(kind)` (R204), in the spec's order: Kernel mode first, `SP` relocated to `MEMORY_SIZE`, `SP` and
`PC` pushed, interrupts disabled, `IR, AC, X, Y` pushed, then the vector; a timer entry clears `timer`. -/
def interruptEntry (kind : IntKind) (s : State) : Out State :=
  andThen (push s.sp (setSp s.cfg.memorySize (setMode .kernel s))) fun s1 =>
  andThen (push s1.pc s1) fun s2 =>
  andThen (push s2.ir (setIe false s2)) fun s3 =>
  andThen (push s3.ac s3) fun s4 =>
  andThen (push s4.x s4) fun s5 =>
  andThen (push s5.y s5) fun s6 =>
  .next (setHandler (some kind) (setPc (vector s6.cfg kind)
    (setTimer (if kind = .timer then 0 else s6.timer) s6)))

/-- The return from an interrupt (R186): `Y, X, AC, IR, PC, SP` popped in that order under the mode in force, each
register written as it is popped; the restored `PC` moves past the `Int` when a trap handler returns; then User mode,
interrupts enabled, no handler. -/
def interruptReturn (s : State) : Out State :=
  andThen (pop s) fun r1 =>
  andThen (pop (setY r1.1 r1.2)) fun r2 =>
  andThen (pop (setX r2.1 r2.2)) fun r3 =>
  andThen (pop (setAc r3.1 r3.2)) fun r4 =>
  andThen (pop (setIr r4.1 r4.2)) fun r5 =>
  andThen (pop r5.2) fun r6 =>
  .next (setHandler none (setIe true (setMode .user (setSp r6.1
    (setPc (if r6.2.handler = some .trap then r5.1 + 1 else r5.1) r6.2)))))

end Sys2Proof.Machine
end

