-- ==== Sys2Proof/Machine/Alu.lean ====
section
/-! DEFINITION. Arithmetic and register moves, opcodes 10 to 19, 25 and 26 (spec 43_alu_moves.md, R155 to R167). All
sums and differences wrap, silently (R167); nothing is checked, no memory is touched. -/

namespace Sys2Proof.Machine

/-- Opcode 10 (R155). -/
def execAddX (s : State) : Out State := .next (advance 1 (setAc (s.ac + s.x) s))

/-- Opcode 11 (R156). -/
def execAddY (s : State) : Out State := .next (advance 1 (setAc (s.ac + s.y) s))

/-- Opcode 12 (R157). -/
def execSubX (s : State) : Out State := .next (advance 1 (setAc (s.ac - s.x) s))

/-- Opcode 13 (R158). -/
def execSubY (s : State) : Out State := .next (advance 1 (setAc (s.ac - s.y) s))

/-- Opcode 14 (R159). -/
def execCopyToX (s : State) : Out State := .next (advance 1 (setX s.ac s))

/-- Opcode 15 (R160). -/
def execCopyFromX (s : State) : Out State := .next (advance 1 (setAc s.x s))

/-- Opcode 16 (R161). -/
def execCopyToY (s : State) : Out State := .next (advance 1 (setY s.ac s))

/-- Opcode 17 (R162). -/
def execCopyFromY (s : State) : Out State := .next (advance 1 (setAc s.y s))

/-- Opcode 18 (R163): `SP` is not checked when it is written (R22). -/
def execCopyToSp (s : State) : Out State := .next (advance 1 (setSp s.ac s))

/-- Opcode 19 (R164). -/
def execCopyFromSp (s : State) : Out State := .next (advance 1 (setAc s.sp s))

/-- Opcode 25 (R165). -/
def execIncX (s : State) : Out State := .next (advance 1 (setX (s.x + 1) s))

/-- Opcode 26 (R166). -/
def execDecX (s : State) : Out State := .next (advance 1 (setX (s.x - 1) s))

end Sys2Proof.Machine
end

