-- ==== Sys2Proof/Machine/Flags.lean ====
section
/-! DEFINITION. The machine has no status flags and no condition codes (spec R33), so no instruction computes one.
The one condition it tests is the accumulator itself, in opcodes 21 and 22. -/

namespace Sys2Proof.Machine

/-- "jump if `AC == 0`" (R171): the whole of `AC` is zero. -/
abbrev acIsZero (s : State) : Prop := s.ac = 0

end Sys2Proof.Machine
end

