-- ==== Sys2Proof/Machine/Control.lean ====
section
/-! DEFINITION. Control transfer, opcodes 20 to 24 (spec 44_control.md, R170 to R175). Targets are absolute and are
checked only by the fetch of the next step (R175). -/

namespace Sys2Proof.Machine

/-- `PC <- target`, unchecked (R175 (b)). -/
def transfer (target : Word) (s : State) : State := setPc target s

/-- Opcode 20 (R170). -/
def execJump (addr : Word) (s : State) : Out State := .next (transfer addr s)

/-- Opcode 21 (R171). -/
def execJumpIfEqual (addr : Word) (s : State) : Out State :=
  .next (if acIsZero s then transfer addr s else advance 2 s)

/-- Opcode 22 (R172). -/
def execJumpIfNotEqual (addr : Word) (s : State) : Out State :=
  .next (if acIsZero s then advance 2 s else transfer addr s)

/-- Opcode 23 (R173): the return address pushed is `p + 2` (D7). -/
def execCall (addr : Word) (s : State) : Out State :=
  andThen (push (s.pc + 2) s) fun s1 => .next (transfer addr s1)

/-- Opcode 24 (R174): no increment after the pop. -/
def execRet (s : State) : Out State :=
  andThen (pop s) fun r => .next (transfer r.1 r.2)

end Sys2Proof.Machine
end

