-- ==== Sys2Proof/Machine/InputOutput.lean ====
section
/-! DEFINITION. Random input and console output, opcodes 8 and 9 (spec 42_random_output.md, R150 to R152). -/

namespace Sys2Proof.Machine

/-- Opcode 8 (R150): a fresh draw in `[1, 100]`, any value, unrelated to the draws before it. -/
def execGet (s : State) : Out State :=
  .next (advance 1 (setAc (drawValue s.drawCount) (countDraw s)))

/-- Opcode 9 (R151): port 1 prints `AC` as an integer, port 2 as a character code, any other port is the non-fatal
report of R221. -/
def execPut (port : Word) (s : State) : Out State :=
  .next (advance 2 (
    if port = 1 then emitConsole (.putInt s.ac) s
    else if port = 2 then emitConsole (.putChar s.ac) s
    else emitDiagnostic (.badPort port) s))

/-- What the console shows for an event (R152): the shortest decimal spelling for `PutInt`, the open `CHAR_RENDER` for
`PutChar`. No step reads it. -/
def ConsoleEvent.render : ConsoleEvent → String
  | .putInt v => toString v.toInt
  | .putChar v => Config.charRender v

/-- What the report of a non-fatal error says (R152): open. No step reads it. -/
def DiagnosticEvent.render : DiagnosticEvent → String
  | .badPort operand => Config.badPortText operand

/-- What a console stream shows (R152). -/
def renderConsole (events : List ConsoleEvent) : String := String.join (events.map ConsoleEvent.render)

end Sys2Proof.Machine
end

