-- ==== Sys2Proof/Machine/Operands.lean ====
section
/-! DEFINITION. The ways to form a data address (spec R147). Direct and indirect addresses are the operand and the
cell it names; the indexed ones are wrapping sums (R167). Immediate operands form no address. No mode changes its base
or its index. -/

namespace Sys2Proof.Machine

/-- `opnd` (opcodes 2 and 7): the address is the operand itself. -/
def directAddress (opnd : Word) (_ : State) : Word := opnd

/-- `opnd + X` (opcode 4). -/
def indexedXAddress (opnd : Word) (s : State) : Word := opnd + s.x

/-- `opnd + Y` (opcode 5). -/
def indexedYAddress (opnd : Word) (s : State) : Word := opnd + s.y

/-- `SP + X` (opcode 6). -/
def stackXAddress (s : State) : Word := s.sp + s.x

/-- `mem[opnd]` (opcode 3): the address is read from memory, under both checks, and the read is a request of its own. -/
def indirectAddress (opnd : Word) (s : State) : Out (Word × State) := memRead opnd s

end Sys2Proof.Machine
end

