-- ==== Sys2Proof/Machine/LoadStore.lean ====
section
/-! DEFINITION. Loads and the store, opcodes 1 to 7 (spec 41_load_store.md, R140 to R146). The state given is the one
after the timer phase, the fetch and the operand fetch, with `PC = p` still. -/

namespace Sys2Proof.Machine

/-- `AC <- MemRead(ea, 1)`, then `PC` over the instruction's `n` cells. -/
def loadAc (ea n : Word) (s : State) : Out State :=
  andThen (memRead ea s) fun r => .next (advance n (setAc r.1 r.2))

/-- Opcode 1 (R140): the immediate; never checked as an address. -/
def execLoadValue (value : Word) (s : State) : Out State := .next (advance 2 (setAc value s))

/-- Opcode 2 (R141). -/
def execLoadAddr (addr : Word) (s : State) : Out State := loadAc (directAddress addr s) 2 s

/-- Opcode 3 (R142): two reads, each checked, in this order. -/
def execLoadInd (addr : Word) (s : State) : Out State :=
  andThen (indirectAddress addr s) fun r => loadAc r.1 2 r.2

/-- Opcode 4 (R143): the check is on the sum. -/
def execLoadIdxX (addr : Word) (s : State) : Out State := loadAc (indexedXAddress addr s) 2 s

/-- Opcode 5 (R144): the check is on the sum. -/
def execLoadIdxY (addr : Word) (s : State) : Out State := loadAc (indexedYAddress addr s) 2 s

/-- Opcode 6 (R145). -/
def execLoadSpX (s : State) : Out State := loadAc (stackXAddress s) 1 s

/-- Opcode 7 (R146). -/
def execStore (addr : Word) (s : State) : Out State :=
  andThen (memWrite (directAddress addr s) s.ac s) fun s1 => .next (advance 2 s1)

end Sys2Proof.Machine
end

