-- ==== Sys2Proof/Machine/Stack.lean ====
section
/-! DEFINITION. The stack instructions, opcodes 27 and 28 (spec 45_stack.md, R180 and R181). -/

namespace Sys2Proof.Machine

/-- Opcode 27 (R180). -/
def execPush (s : State) : Out State :=
  andThen (push s.ac s) fun s1 => .next (advance 1 s1)

/-- Opcode 28 (R181). -/
def execPop (s : State) : Out State :=
  andThen (pop s) fun r => .next (advance 1 (setAc r.1 r.2))

end Sys2Proof.Machine
end

