-- ==== Sys2Proof/Machine/SystemOps.lean ====
section
/-! DEFINITION. The system instructions, opcodes 29, 30 and 50 (spec 46_system.md, R185 to R187). None is privileged
(R189). -/

namespace Sys2Proof.Machine

/-- Opcode 29 (R185): the software trap, in either mode and whatever `IE` is (R206). `PC` is still `p`, so the frame
holds the address of the `Int` itself. -/
def execInt (s : State) : Out State := interruptEntry .trap s

/-- Opcode 30 (R186), in either mode. -/
def execIret (s : State) : Out State := interruptReturn s

/-- Opcode 50 (R187): `Terminate` is sent, the run is over, and `PC` does not move (D25). -/
def execHalt (s : State) : Out State := .next (setRun .halted (request .terminate s))

end Sys2Proof.Machine
end

