-- ==== Sys2Proof/Machine/Dispatch.lean ====
section
/-! DEFINITION. The execute phase: one arm per instruction, each a call of its meaning (spec R130, `Execute`). -/

namespace Sys2Proof.Machine

/-- `Execute(IR, p, opnd, draw)` of R130, on the state after the timer phase, the fetch and the operand fetch. -/
def exec (i : Instr) (s : State) : Host.Outcome State Fault Refusal :=
  match i with
  | .loadValue value => Sys2Proof.Machine.execLoadValue value s
  | .loadAddr addr => Sys2Proof.Machine.execLoadAddr addr s
  | .loadInd addr => Sys2Proof.Machine.execLoadInd addr s
  | .loadIdxX addr => Sys2Proof.Machine.execLoadIdxX addr s
  | .loadIdxY addr => Sys2Proof.Machine.execLoadIdxY addr s
  | .loadSpX => Sys2Proof.Machine.execLoadSpX s
  | .store addr => Sys2Proof.Machine.execStore addr s
  | .get => Sys2Proof.Machine.execGet s
  | .put port => Sys2Proof.Machine.execPut port s
  | .addX => Sys2Proof.Machine.execAddX s
  | .addY => Sys2Proof.Machine.execAddY s
  | .subX => Sys2Proof.Machine.execSubX s
  | .subY => Sys2Proof.Machine.execSubY s
  | .copyToX => Sys2Proof.Machine.execCopyToX s
  | .copyFromX => Sys2Proof.Machine.execCopyFromX s
  | .copyToY => Sys2Proof.Machine.execCopyToY s
  | .copyFromY => Sys2Proof.Machine.execCopyFromY s
  | .copyToSp => Sys2Proof.Machine.execCopyToSp s
  | .copyFromSp => Sys2Proof.Machine.execCopyFromSp s
  | .jump addr => Sys2Proof.Machine.execJump addr s
  | .jumpIfEqual addr => Sys2Proof.Machine.execJumpIfEqual addr s
  | .jumpIfNotEqual addr => Sys2Proof.Machine.execJumpIfNotEqual addr s
  | .call addr => Sys2Proof.Machine.execCall addr s
  | .ret => Sys2Proof.Machine.execRet s
  | .incX => Sys2Proof.Machine.execIncX s
  | .decX => Sys2Proof.Machine.execDecX s
  | .push => Sys2Proof.Machine.execPush s
  | .pop => Sys2Proof.Machine.execPop s
  | .int => Sys2Proof.Machine.execInt s
  | .iret => Sys2Proof.Machine.execIret s
  | .halt => Sys2Proof.Machine.execHalt s

end Sys2Proof.Machine
end

