-- ==== Sys2Proof/Machine/Cycle.lean ====
section
/-! DEFINITION. The cycle (spec 40_cycle.md): the timer phase (R122), the fetch, decode and operand fetch (R123 to
R125), and the whole step of R130; and placing an instruction where the next fetch reads it. -/

namespace Sys2Proof.Machine

/-- The timer interrupt fires in this cycle: `IE` and `timer >= timeConstraint`, signed (R122, D6). -/
abbrev timerDue (s : State) : Prop := s.ie = true ∧ s.cfg.timeConstraint.toInt ≤ s.timer.toInt

/-- The timer phase when it does not fire (R122): it counts while `IE` is true and does nothing otherwise. -/
def timerTick (s : State) : State := if s.ie then setTimer (s.timer + 1) s else s

/-- Fetch, decode and, for format `A`, the operand fetch (R123 to R125): the instruction, and the state with `IR`
written and the requests sent. `PC` still is `p`. An unrecognised opcode ends the run before any second read (R188). -/
def fetch (s : State) : Out (Instr × State) :=
  andThen (memRead s.pc s) fun r =>
    let s1 := setIr r.1 r.2
    match decodeOpcode r.1 with
    | none => raise .illegalOpcode r.1 s1
    | some (.zero i) => .next (i, s1)
    | some (.one mk) => andThen (memRead (s.pc + 1) s1) fun o => .next (mk o.1, o.2)

/-- One step (R130) of a running machine, and no step of a stopped one (R129). A timer interrupt is a step of its own:
nothing is fetched in it (R120). -/
def cycle (s : State) : Out State :=
  match s.run with
  | .running =>
    if timerDue s then interruptEntry .timer s
    else andThen (fetch (timerTick s)) fun r => exec r.1 r.2
  | .halted => .fault (.notRunning s)
  | .faulted _ _ => .fault (.notRunning s)

/-- The cell at `a` set from outside the machine; nothing where there is no such cell. -/
def placeCell (a v : Word) (s : State) : State :=
  if inBounds s a then setMem (s.mem.write a.toNat v) s else s

/-- Cells set from outside the machine at `a` and the addresses after it. -/
def placeCells : Word → List Word → State → State
  | _, [], s => s
  | a, v :: vs, s => placeCells (a + 1) vs (placeCell a v s)

end Sys2Proof.Machine
end

