-- ==== Sys2Proof/Machine/Step.lean ====
section
/-! DEFINITION. The step function, and an instruction stored where the step fetches next. -/

namespace Sys2Proof.Machine

/-- One step of the machine: `cycle`, which is R130. -/
def step : State → Host.Outcome State Fault Refusal := fun s => cycle s

/-- `s` with the instruction of the table given by its bits stored at `PC` and the cell after it, from where the next
instruction step fetches it. Nothing else changes. The program of this machine is its image, loaded from outside
before the run (R240; log entry 9); this stands for that load. -/
def State.withFetchWord (s : State) (nbits w : Nat) : State := placeCells s.pc (tableCells nbits w) s

end Sys2Proof.Machine
end

