-- ==== Sys2Proof/Machine/Boot.lean ====
section
/-! DEFINITION. The construction of a machine from its startup parameters (spec R240): a configuration, with
`timeConstraint`, and a fully materialized image. -/

namespace Sys2Proof.Machine

/-- The canonical memory of a cell array whose first cell has address `a`. -/
def Memory.ofImageAt : Nat → List Word → Memory
  | _, [] => []
  | a, v :: vs => if v = Memory.fill then Memory.ofImageAt (a + 1) vs else (a, v) :: Memory.ofImageAt (a + 1) vs

/-- A machine at the start of its run (R38, R240). Where the configuration breaks R9 or the image does not have
`MEMORY_SIZE` cells there is no machine (R242). -/
def boot (c : Config) (image : List Word) : Option State :=
  if c.wf ∧ imageWf c image then
    some { State.reset with pc := c.resetPc, sp := c.resetSp, mem := Memory.ofImageAt 0 image, cfg := c }
  else none

end Sys2Proof.Machine
end

