-- ==== Sys2Proof/Machine/Service.lean ====
section
/-! DEFINITION. The Memory Service on its own (spec R67 to R70): what it does with each request and what ends it, and
the integers of a request on the reference wire with the receiver that tells them apart (R71, R72). `memRead` and
`memWrite` fold the service into the Engine's step, as R7 allows. -/

namespace Sys2Proof.Machine

/-- The Memory Service. It holds no state but its cells (R70); `accepting` says whether its lifetime lasts (R69, R89). -/
structure Service where
  /-- the cell array (R35) -/
  cells : Memory
  /-- does it still accept requests? -/
  accepting : Bool
deriving DecidableEq, Repr

/-- Why a request is not served. -/
inductive ServiceFailure where
  /-- the address is outside the array; fatal (R67, R68) -/
  | boundsFailure
  /-- the service's lifetime is over, so it accepts no request (R69) -/
  | ended
deriving DecidableEq, Repr

/-- The Memory Service of a machine. Its lifetime ends with `Terminate` and with every fatal condition (R89), so it
accepts requests exactly while `run` is `Running`; its cells may be read after that (R89). -/
def State.service (s : State) : Service where
  cells := s.mem
  accepting := s.run == .running

/-- One request served: the service after it, and the reply where the kind has one (R67, R68, R69). After `Terminate`
nothing is accepted (R69). The service sees no register and no mode (R40, R67). -/
def serve (size : Word) (r : BusRequest) (v : Service) : Except ServiceFailure (Service × Option Word) :=
  match v.accepting with
  | false => .error .ended
  | true =>
    match r with
    | .read a =>
      if 0 ≤ a.toInt ∧ a.toInt < size.toInt then .ok (v, some (v.cells.read a.toNat)) else .error .boundsFailure
    | .write a w =>
      if 0 ≤ a.toInt ∧ a.toInt < size.toInt then .ok ({ v with cells := v.cells.write a.toNat w }, none)
      else .error .boundsFailure
    | .terminate => .ok ({ v with accepting := false }, none)

/-- Requests served one at a time in the order received (R70, R81): the service at the end, and the replies in order. -/
def serveAll (size : Word) : List BusRequest → Service → Except ServiceFailure (Service × List Word)
  | [], v => .ok (v, [])
  | r :: rs, v =>
    match serve size r v with
    | .error e => .error e
    | .ok (v1, reply) =>
      match serveAll size rs v1 with
      | .error e => .error e
      | .ok (v2, replies) => .ok (v2, reply.toList ++ replies)

/-- The three kinds of request (R71). -/
inductive RequestKind where
  | read
  | write
  | terminate
deriving DecidableEq, Repr

/-- The kind of a request (R71). -/
def BusRequest.kind : BusRequest → RequestKind
  | .read _ => .read
  | .write _ _ => .write
  | .terminate => .terminate

/-- The integers of a request on the reference wire (R71, R72). -/
def BusRequest.wire : BusRequest → List Word
  | .read a => [a]
  | .write a v => [Config.writeSentinel, a, v]
  | .terminate => [Config.terminateSentinel]

/-- The kind a receiver takes a message for, by the value of its first integer (R72); a negative value that is no
sentinel has no kind (log entry 10). -/
def requestKind (first : Word) : Option RequestKind :=
  if first = Config.writeSentinel then some .write
  else if first = Config.terminateSentinel then some .terminate
  else if 0 ≤ first.toInt then some .read
  else none

/-- The receiver of the reference wire: one request taken from the integers received, and the integers after it (R71). -/
def receive : List Word → Option (BusRequest × List Word)
  | [] => none
  | first :: rest =>
    match requestKind first, rest with
    | some .read, rest => some (.read first, rest)
    | some .write, a :: v :: rest => some (.write a v, rest)
    | some .write, _ => none
    | some .terminate, rest => some (.terminate, rest)
    | none, _ => none

end Sys2Proof.Machine
end

