-- ==== Sys2Proof/Safety.lean ====
section
/-! DEFINITION. What counts as a legal state and a safe run, in the terms claims use. -/

namespace Sys2Proof.Machine

/-- The two legal combinations of the control state (R37). -/
abbrev controlLegal (s : State) : Prop :=
  (s.mode = .user ∧ s.ie = true ∧ s.handler = none) ∨
  (s.mode = .kernel ∧ s.ie = false ∧ s.handler ≠ none)

/-- The timer is not negative and, where `timeConstraint` is not negative either, never exceeds it (R29). -/
abbrev timerLegal (s : State) : Prop :=
  0 ≤ s.timer.toInt ∧ (0 ≤ s.cfg.timeConstraint.toInt → s.timer.toInt ≤ s.cfg.timeConstraint.toInt)

/-- The invariant of every machine that was constructed as R240 says. -/
structure State.Inv (s : State) : Prop where
  /-- R9 -/
  cfg : s.cfg.wf
  /-- the canonical form of the cell array -/
  mem : s.mem.wf s.cfg.memorySize.toInt
  /-- R37 -/
  control : controlLegal s
  /-- R29 -/
  timer : timerLegal s

/-- The run has not ended abnormally (R220: "a `Faulted` state is never a successful end of a run"). -/
abbrev State.notFaulted (s : State) : Prop := ∀ kind info, s.run ≠ .faulted kind info

/-- A step did not end the run abnormally. -/
abbrev safeOutcome (o : Out State) : Prop := ∃ t, o = .next t ∧ t.notFaulted

end Sys2Proof.Machine
end

