-- ==== Sys2Proof/Certificates/Slice0/Obligations.lean ====
section
/-! DEFINITION. The statements for the provers, and the few words they are written in. Each docstring names the rule of
the spec it formalises. Where a statement is about `exec`, the state given is the one in which the execute phase
begins: the timer phase, the fetch and the operand fetch are done and `PC` is still `p` (41_load_store.md, preamble);
`StepRunsTheDecodedInstruction` says that a step of the machine reaches `exec` in exactly such a state. -/

namespace Sys2Proof.Claims

open Sys2Proof Sys2Proof.Machine

/-- The cell at `PC`. -/
def opcodeCell (s : State) : Word := s.mem.read s.pc.toNat

/-- The cell after it. -/
def operandCell (s : State) : Word := s.mem.read (s.pc + 1).toNat

/-- The state in which the execute phase of a one-cell instruction begins (R122, R123). -/
def afterOpcode (s : State) : State :=
  { s with
    timer := if s.ie = true then s.timer + 1 else s.timer
    ir := opcodeCell s
    bus := s.bus ++ [.read s.pc] }

/-- The state in which the execute phase of a two-cell instruction begins (R122, R123, R125). -/
def afterOperand (s : State) : State :=
  { s with
    timer := if s.ie = true then s.timer + 1 else s.timer
    ir := opcodeCell s
    bus := s.bus ++ [.read s.pc, .read (s.pc + 1)] }

/-- A running machine in which no timer interrupt is due and whose opcode cell may be read. -/
abbrev fetches (s : State) : Prop := s.run = .running ∧ ¬ timerDue s ∧ accessible s s.pc

/-- The state in which the execute phase of `i` begins. -/
def begun (i : Instr) (s : State) : State := if operandOf i = none then afterOpcode s else afterOperand s

/-- The cells at `PC` are `i`'s, all may be fetched, and no timer interrupt is due. -/
def Placed (i : Instr) (s : State) : Prop :=
  fetches s ∧ opcodeCell s = opcodeOf i ∧ ∀ v, operandOf i = some v → operandCell s = v ∧ accessible s (s.pc + 1)

/-- Where `i` is placed, a step counts in the timer, sets `IR`, reads the one or two cells of `i` and nothing else, and
then does what `exec i` does: the part that is common to the rules of 41 to 46 ("Encoding", and the first requests of
"Bus"). -/
def Dispatches (i : Instr) : Prop := ∀ s : State, Placed i s → step s = exec i (begun i s)

/-- The opcode numbers of format `A` (R102). -/
def operandOpcodes : List Int := [1, 2, 3, 4, 5, 7, 9, 20, 21, 22, 23]

/-- The opcode numbers of format `Z` (R101). -/
def plainOpcodes : List Int := [6, 8, 10, 11, 12, 13, 14, 15, 16, 17, 18, 19, 24, 25, 26, 27, 28, 29, 30, 50]

/-- How an access at an address that is not accessible ends the run (R74): a protection fault before the request is
sent, else a bounds fault after it. -/
def refusedAccess (s : State) (a : Word) (r : BusRequest) : Fault :=
  if s.mode = .user ∧ s.cfg.userLimit.toInt ≤ a.toInt then
    .fatal .protectionFault a { s with run := .faulted .protectionFault a }
  else
    .fatal .boundsFault a { s with run := .faulted .boundsFault a, bus := s.bus ++ [r] }

/-- `m` is `m0` with `v` in the cell at `a` and every other cell as before. -/
def Stored (m0 m : Memory) (a : Word) (v : Word) : Prop :=
  m.read a.toNat = v ∧ ∀ b : Nat, b ≠ a.toNat → m.read b = m0.read b

/-- The six cells at the top of memory hold `SP, PC, IR, AC, X, Y` of `s`, downward (R205). -/
def FrameHolds (s : State) (m : Memory) : Prop :=
  m.read (s.cfg.memorySize.toNat - 1) = s.sp ∧ m.read (s.cfg.memorySize.toNat - 2) = s.pc ∧
  m.read (s.cfg.memorySize.toNat - 3) = s.ir ∧ m.read (s.cfg.memorySize.toNat - 4) = s.ac ∧
  m.read (s.cfg.memorySize.toNat - 5) = s.x ∧ m.read (s.cfg.memorySize.toNat - 6) = s.y

/-- The six requests of an interrupt entry, in order (R185, R205). -/
def entryRequests (s : State) : List BusRequest :=
  [.write (s.cfg.memorySize - 1) s.sp, .write (s.cfg.memorySize - 2) s.pc, .write (s.cfg.memorySize - 3) s.ir,
   .write (s.cfg.memorySize - 4) s.ac, .write (s.cfg.memorySize - 5) s.x, .write (s.cfg.memorySize - 6) s.y]

/-- `t` is `s` after an interrupt entry (R204, R205): every field that changes, the frame, the requests, and every cell
outside the frame as before. -/
def Entered (kind : IntKind) (s t : State) : Prop :=
  t = { s with
    mode := .kernel
    sp := s.cfg.memorySize - 6
    ie := false
    timer := if kind = .timer then 0 else s.timer
    pc := if kind = .timer then s.cfg.timerVector else s.cfg.trapVector
    handler := some kind
    mem := t.mem
    bus := s.bus ++ entryRequests s } ∧
  FrameHolds s t.mem ∧
  ∀ a : Nat, (a : Int) < s.cfg.memorySize.toInt - 6 ∨ s.cfg.memorySize.toInt ≤ a → t.mem.read a = s.mem.read a

/-- The cell `k` above `SP`. -/
def stackCell (s : State) (k : Nat) : Word := s.mem.read (s.sp + BitVec.ofNat 32 k).toNat

/-- `s` after the first `j` pops of a return from interrupt: the registers restored so far (R186). -/
def poppedSoFar (j : Nat) (s : State) : State :=
  { s with
    y := if 0 < j then stackCell s 0 else s.y
    x := if 1 < j then stackCell s 1 else s.x
    ac := if 2 < j then stackCell s 2 else s.ac
    ir := if 3 < j then stackCell s 3 else s.ir
    sp := s.sp + BitVec.ofNat 32 j
    bus := s.bus ++ (List.range j).map fun k => .read (s.sp + BitVec.ofNat 32 k) }

/-- The effective address of the loads that read one cell (R147). -/
def loadAddress (i : Instr) (s : State) : Option Word :=
  match i with
  | .loadAddr addr => some addr
  | .loadIdxX addr => some (addr + s.x)
  | .loadIdxY addr => some (addr + s.y)
  | .loadSpX => some (s.sp + s.x)
  | .loadValue _ | .loadInd _ | .store _ | .get | .put _ | .addX | .addY | .subX | .subY | .copyToX | .copyFromX
  | .copyToY | .copyFromY | .copyToSp | .copyFromSp | .jump _ | .jumpIfEqual _ | .jumpIfNotEqual _ | .call _ | .ret
  | .incX | .decX | .push | .pop | .int | .iret | .halt => none

/-- The number of cells of an instruction. -/
def cellCount (i : Instr) : Word := BitVec.ofNat 32 (encode i).length

/-- The addresses an instruction writes to. -/
def storedCells (i : Instr) (s : State) : List Word :=
  match i with
  | .store addr => [addr]
  | .call _ | .push => [s.sp - 1]
  | .int => [s.cfg.memorySize - 1, s.cfg.memorySize - 2, s.cfg.memorySize - 3, s.cfg.memorySize - 4,
      s.cfg.memorySize - 5, s.cfg.memorySize - 6]
  | .loadValue _ | .loadAddr _ | .loadInd _ | .loadIdxX _ | .loadIdxY _ | .loadSpX | .get | .put _ | .addX | .addY
  | .subX | .subY | .copyToX | .copyFromX | .copyToY | .copyFromY | .copyToSp | .copyFromSp | .jump _
  | .jumpIfEqual _ | .jumpIfNotEqual _ | .ret | .incX | .decX | .pop | .iret | .halt => []

/-- The data requests of an instruction that completes, as the "Bus" lines of 41 to 46 list them. -/
def dataRequests (i : Instr) (s : State) : List BusRequest :=
  match i with
  | .loadAddr addr => [.read addr]
  | .loadInd addr => [.read addr, .read (s.mem.read addr.toNat)]
  | .loadIdxX addr => [.read (addr + s.x)]
  | .loadIdxY addr => [.read (addr + s.y)]
  | .loadSpX => [.read (s.sp + s.x)]
  | .store addr => [.write addr s.ac]
  | .call _ => [.write (s.sp - 1) (s.pc + 2)]
  | .ret => [.read s.sp]
  | .push => [.write (s.sp - 1) s.ac]
  | .pop => [.read s.sp]
  | .int => entryRequests s
  | .iret => [.read s.sp, .read (s.sp + 1), .read (s.sp + 2), .read (s.sp + 3), .read (s.sp + 4), .read (s.sp + 5)]
  | .halt => [.terminate]
  | .loadValue _ | .get | .put _ | .addX | .addY | .subX | .subY | .copyToX | .copyFromX | .copyToY | .copyFromY
  | .copyToSp | .copyFromSp | .jump _ | .jumpIfEqual _ | .jumpIfNotEqual _ | .incX | .decX => []

/-- Pushes in order. -/
def pushAll : List Word → State → Out State
  | [], s => .next s
  | v :: vs, s => andThen (push v s) (pushAll vs)

/-- `n` pops, with what they returned in order. -/
def popMany : Nat → State → Out (List Word × State)
  | 0, s => .next ([], s)
  | n + 1, s => andThen (pop s) fun r => andThen (popMany n r.2) fun q => .next (r.1 :: q.1, q.2)

/-- Two states that differ in system space only. -/
def SameBelow (s t : State) : Prop :=
  t = { s with mem := t.mem } ∧
  ∀ a : Nat, (a : Int) < s.cfg.userLimit.toInt → t.mem.read a = s.mem.read a

/-- Two outcomes that differ in system space only. -/
def SameOutcome : Out State → Out State → Prop
  | .next s, .next t => SameBelow s t
  | .fault (.fatal k i s), .fault (.fatal l j t) => k = l ∧ i = j ∧ SameBelow s t
  | .fault (.notRunning s), .fault (.notRunning t) => SameBelow s t
  | _, _ => False

end Sys2Proof.Claims

open Sys2Proof Sys2Proof.Machine Sys2Proof.Claims

/-! ## Encoding -/

/-- R100 to R106: the cells an instruction decodes from are exactly its encoding, with every operand at every value. -/
def Obligations.DecodeAndEncodeAgree : Prop :=
  ∀ (cells : List Word) (i : Instr) (rest : List Word), decode cells = .ok (i, rest) ↔ cells = encode i ++ rest

/-- R106: cells written out from the opcode map decode to the instructions they stand for. -/
def Obligations.TabledCellsDecode : Prop :=
  decodeTableWord 32 0x00000001 = some (.loadValue 0) ∧
  decodeTableWord 64 0x0000000500000001 = some (.loadValue 5) ∧
  decodeTableWord 64 0xFFFFFFFE00000007 = some (.store (-2)) ∧
  decodeTableWord 32 0x00000008 = some .get ∧
  decodeTableWord 32 0x0000000C = some .subX ∧
  decodeTableWord 64 0x0000006400000017 = some (.call 100) ∧
  decodeTableWord 32 0x0000001B = some .push ∧
  decodeTableWord 32 0x0000001E = some .iret ∧
  decodeTableWord 32 0x00000032 = some .halt ∧
  decodeTableWord 32 0x00000101 = none ∧ decodeTableWord 32 0 = none ∧ decodeTableWord 32 0x0000001F = none

/-- R104: the opcode alone fixes the length. -/
def Obligations.OpcodeFixesLength : Prop :=
  ∀ i : Instr, ((encode i).length = 2 ↔ (opcodeOf i).toInt ∈ operandOpcodes) ∧
    ((encode i).length = 1 ↔ (opcodeOf i).toInt ∈ plainOpcodes)

/-- R107, R188: a fetched value outside `{1..30, 50}` ends the run in the decode phase, in either mode, with `IR` set,
`PC` at `p` and the opcode fetch the step's only request. -/
def Obligations.UnrecognisedOpcodeIsFatal : Prop :=
  ∀ s : State, fetches s → ¬ (1 ≤ (opcodeCell s).toInt ∧ (opcodeCell s).toInt ≤ 30) → (opcodeCell s).toInt ≠ 50 →
    step s = .fault (.fatal .illegalOpcode (opcodeCell s)
      { afterOpcode s with run := .faulted .illegalOpcode (opcodeCell s) })

/-! ## The cycle -/

/-- 40_cycle.md: where the cells at `PC` decode to `i`, a step is `exec i` in the state after the timer phase, the
fetch and, for a two-cell instruction, the operand fetch. That every instruction has one timer phase before it is the
spec's own decision D4 (R122; log entry 14). -/
def Obligations.StepRunsTheDecodedInstruction : Prop :=
  ∀ (s : State) (i : Instr) (rest : List Word), fetches s → decode [opcodeCell s, operandCell s] = .ok (i, rest) →
    (operandOf i = none → step s = exec i (afterOpcode s)) ∧
    (operandOf i ≠ none → accessible s (s.pc + 1) → step s = exec i (afterOperand s))

/-- R123: the opcode fetch is checked like any read; the timer phase has happened. That the opcode fetch is guarded by
the permission check is the spec's own decision D11 (R73; log entry 19). -/
def Obligations.OpcodeFetchIsChecked : Prop :=
  ∀ s : State, s.run = .running → ¬ timerDue s → ¬ accessible s s.pc →
    step s = .fault (refusedAccess { s with timer := if s.ie = true then s.timer + 1 else s.timer } s.pc (.read s.pc))

/-- R125: a format `A` opcode always fetches its operand before anything else it does, and where the operand cell is
not accessible the instruction has none of its effects. That the operand is always read is the spec's own decision D12
(R104; log entry 19), and that its fetch is checked is D11 (R73; log entry 19). -/
def Obligations.OperandFetchComesFirst : Prop :=
  ∀ s : State, fetches s → (opcodeCell s).toInt ∈ operandOpcodes →
    (accessible s (s.pc + 1) → ∃ i, encode i = [opcodeCell s, operandCell s] ∧ step s = exec i (afterOperand s)) ∧
    (¬ accessible s (s.pc + 1) → step s = .fault (refusedAccess (afterOpcode s) (s.pc + 1) (.read (s.pc + 1))))

/-- R122: the timer phase. It fires, or counts one without overflow, or, with interrupts disabled, does nothing; unless
it fires, the cycle goes on to the fetch. One timer phase a step, and firing at `timer >= timeConstraint`, are the spec's
own decisions D4 and D6 (log entry 14). -/
def Obligations.TimerPhaseComesFirst : Prop :=
  ∀ s : State, s.run = .running →
    (s.ie = true → s.cfg.timeConstraint.toInt ≤ s.timer.toInt → step s = interruptEntry .timer s) ∧
    (s.ie = true → s.timer.toInt < s.cfg.timeConstraint.toInt →
      (s.timer + 1).toInt = s.timer.toInt + 1 ∧
      step s = andThen (fetch { s with timer := s.timer + 1 }) fun r => exec r.1 r.2) ∧
    (s.ie = false → step s = andThen (fetch s) fun r => exec r.1 r.2)

/-- R129: a stopped machine has no step. -/
def Obligations.NoStepOnceStopped : Prop :=
  ∀ s : State, (s.run ≠ .running → step s = .fault (.notRunning s)) ∧ (∀ t, step s = .next t → s.run = .running)

/-! ## Memory and the stack primitives -/

/-- R74, R75, R76: an access is refused by the permission check before any request is sent, else by the bounds check
after it, and else reads or writes its one cell. The order of the checks, and that they compare signed values, are the
spec's own decision D13 (log entry 20). -/
def Obligations.PermissionThenBounds : Prop :=
  ∀ (s : State) (a v : Word),
    (s.mode = .user → s.cfg.userLimit.toInt ≤ a.toInt →
      memRead a s = .fault (.fatal .protectionFault a { s with run := .faulted .protectionFault a }) ∧
      memWrite a v s = .fault (.fatal .protectionFault a { s with run := .faulted .protectionFault a })) ∧
    ((s.mode = .kernel ∨ a.toInt < s.cfg.userLimit.toInt) → (a.toInt < 0 ∨ s.cfg.memorySize.toInt ≤ a.toInt) →
      memRead a s =
        .fault (.fatal .boundsFault a { s with run := .faulted .boundsFault a, bus := s.bus ++ [.read a] }) ∧
      memWrite a v s =
        .fault (.fatal .boundsFault a { s with run := .faulted .boundsFault a, bus := s.bus ++ [.write a v] })) ∧
    ((s.mode = .kernel ∨ a.toInt < s.cfg.userLimit.toInt) → 0 ≤ a.toInt → a.toInt < s.cfg.memorySize.toInt →
      memRead a s = .next (s.mem.read a.toNat, { s with bus := s.bus ++ [.read a] }) ∧
      ∃ t, memWrite a v s = .next t ∧ t = { s with mem := t.mem, bus := s.bus ++ [.write a v] } ∧ Stored s.mem t.mem a v)

/-- R82: the store/load round trip, until another cell is written. -/
def Obligations.ReadReturnsTheLastWrite : Prop :=
  ∀ (s t : State) (a v : Word), memWrite a v s = .next t →
    (∃ u, memRead a t = .next (v, u)) ∧
    ∀ (b w : Word) (t' : State), b ≠ a → memWrite b w t = .next t' → ∃ u, memRead a t' = .next (v, u)

/-- R77, R78: push decrements and then writes, and a faulting push has already decremented; pop reads and then
increments, and erases nothing. The full, descending stack is the spec's own inference D3 (log entry 13). -/
def Obligations.PushAndPopPrimitives : Prop :=
  ∀ (s : State) (v : Word),
    (accessible s (s.sp - 1) → ∃ t, push v s = .next t ∧
      t = { s with sp := s.sp - 1, mem := t.mem, bus := s.bus ++ [.write (s.sp - 1) v] } ∧
      Stored s.mem t.mem (s.sp - 1) v) ∧
    (¬ accessible s (s.sp - 1) →
      push v s = .fault (refusedAccess { s with sp := s.sp - 1 } (s.sp - 1) (.write (s.sp - 1) v))) ∧
    (accessible s s.sp →
      pop s = .next (s.mem.read s.sp.toNat, { s with sp := s.sp + 1, bus := s.bus ++ [.read s.sp] })) ∧
    (¬ accessible s s.sp → pop s = .fault (refusedAccess s s.sp (.read s.sp)))

/-- R79: any pushes that succeed, followed by as many pops, return the values last in first out, with `SP` back where
it was and the pushed cells as the pushes left them. -/
def Obligations.StackIsLastInFirstOut : Prop :=
  ∀ (vs : List Word) (s t : State), pushAll vs s = .next t →
    ∃ u, popMany vs.length t = .next (vs.reverse, u) ∧ u.sp = s.sp ∧ u.mem = t.mem

/-! ## Loads, the store, input and output -/

/-- R140: the immediate, never checked as an address. -/
def Obligations.LoadValueCopiesTheOperand : Prop :=
  ∀ (value : Word) (s : State), encode (.loadValue value) = [1, value] ∧ Dispatches (.loadValue value) ∧
    exec (.loadValue value) s = .next { s with ac := value, pc := s.pc + 2 }

/-- R141, R143, R144, R145: the loads of one cell, direct, indexed by `X` or `Y`, and stack-relative. Where the
address formed is not accessible the run ends with `AC` and `PC` as they were. That the sum wraps at 32 bits is the
spec's own decisions D1 and D2 (R167; log entries 11 and 12). -/
def Obligations.LoadsReadTheirEffectiveAddress : Prop :=
  (∀ a : Word, encode (.loadAddr a) = [2, a] ∧ encode (.loadIdxX a) = [4, a] ∧ encode (.loadIdxY a) = [5, a]) ∧
  encode .loadSpX = [6] ∧
  ∀ (i : Instr) (s : State) (ea : Word), loadAddress i s = some ea →
    Dispatches i ∧
    (accessible s ea → exec i s =
      .next { s with ac := s.mem.read ea.toNat, pc := s.pc + cellCount i, bus := s.bus ++ [.read ea] }) ∧
    (¬ accessible s ea → exec i s = .fault (refusedAccess s ea (.read ea)))

/-- R142: double indirection, each of the two reads checked, in order. -/
def Obligations.LoadIndReadsTwice : Prop :=
  ∀ (a : Word) (s : State), encode (.loadInd a) = [3, a] ∧ Dispatches (.loadInd a) ∧
    (¬ accessible s a → exec (.loadInd a) s = .fault (refusedAccess s a (.read a))) ∧
    (accessible s a →
      (¬ accessible s (s.mem.read a.toNat) → exec (.loadInd a) s =
        .fault (refusedAccess { s with bus := s.bus ++ [.read a] } (s.mem.read a.toNat)
          (.read (s.mem.read a.toNat)))) ∧
      (accessible s (s.mem.read a.toNat) → exec (.loadInd a) s =
        .next { s with
          ac := s.mem.read (s.mem.read a.toNat).toNat
          pc := s.pc + 2
          bus := s.bus ++ [.read a, .read (s.mem.read a.toNat)] }))

/-- R146: the store. Every cell but the one at the operand is as before; a store that faults changes no cell. -/
def Obligations.StoreWritesOneCell : Prop :=
  ∀ (a : Word) (s : State), encode (.store a) = [7, a] ∧ Dispatches (.store a) ∧
    (accessible s a → ∃ t, exec (.store a) s = .next t ∧
      t = { s with pc := s.pc + 2, mem := t.mem, bus := s.bus ++ [.write a s.ac] } ∧ Stored s.mem t.mem a s.ac) ∧
    (¬ accessible s a → exec (.store a) s = .fault (refusedAccess s a (.write a s.ac)))

/-- R85: a store to the next opcode cell is executed by the very next step. -/
def Obligations.StoreIsSeenByTheNextFetch : Prop :=
  ∀ (s : State) (i : Instr), s.run = .running → ¬ timerDue s → accessible s (s.pc + 2) → encode i = [s.ac] →
    ∃ t, exec (.store (s.pc + 2)) s = .next t ∧ step t = exec i (afterOpcode t)

/-- R150: a draw in `[1, 100]`; nothing else is known of it, which is the spec's own decision D19. That `drawCount` counts
the draws is the model's own (log entry 5). -/
def Obligations.GetDrawsInRange : Prop :=
  encode .get = [8] ∧ Dispatches .get ∧
  ∀ s : State, ∃ r : Word, 1 ≤ r.toInt ∧ r.toInt ≤ 100 ∧
    exec .get s = .next { s with ac := r, pc := s.pc + 1, drawCount := s.drawCount + 1 }

/-- R151, R221: port 1 and port 2 print, any other port is reported and execution continues. That the streams are
lists of events, and that the report goes to a stream of its own and leaves the console alone, is the spec's own
decision D18 (R152; log entry 22). -/
def Obligations.PutPrintsOrReports : Prop :=
  ∀ (port : Word) (s : State), encode (.put port) = [9, port] ∧ Dispatches (.put port) ∧
    (port = 1 → exec (.put port) s = .next { s with console := s.console ++ [.putInt s.ac], pc := s.pc + 2 }) ∧
    (port = 2 → exec (.put port) s = .next { s with console := s.console ++ [.putChar s.ac], pc := s.pc + 2 }) ∧
    (port ≠ 1 → port ≠ 2 →
      exec (.put port) s = .next { s with diagnostic := s.diagnostic ++ [.badPort port], pc := s.pc + 2 })

/-! ## Arithmetic and moves -/

/-- R155 to R158, R165, R166: the exact sum or difference of the signed values, reduced modulo `2^32` into the signed
range; only the destination and `PC` change. The width 32 and the reduction are the spec's own decisions D1 and D2
(R167; log entries 11 and 12). -/
def Obligations.ArithmeticWraps : Prop :=
  (encode .addX = [10] ∧ encode .addY = [11] ∧ encode .subX = [12] ∧ encode .subY = [13] ∧ encode .incX = [25] ∧
    encode .decX = [26]) ∧
  (∀ i ∈ [Instr.addX, .addY, .subX, .subY, .incX, .decX], Dispatches i) ∧
  ∀ s : State,
    exec .addX s = .next { s with ac := BitVec.ofInt 32 (s.ac.toInt + s.x.toInt), pc := s.pc + 1 } ∧
    exec .addY s = .next { s with ac := BitVec.ofInt 32 (s.ac.toInt + s.y.toInt), pc := s.pc + 1 } ∧
    exec .subX s = .next { s with ac := BitVec.ofInt 32 (s.ac.toInt - s.x.toInt), pc := s.pc + 1 } ∧
    exec .subY s = .next { s with ac := BitVec.ofInt 32 (s.ac.toInt - s.y.toInt), pc := s.pc + 1 } ∧
    exec .incX s = .next { s with x := BitVec.ofInt 32 (s.x.toInt + 1), pc := s.pc + 1 } ∧
    exec .decX s = .next { s with x := BitVec.ofInt 32 (s.x.toInt - 1), pc := s.pc + 1 }

/-- R159 to R164: the register moves; `SP` takes any value, unchecked. -/
def Obligations.RegisterMoves : Prop :=
  (encode .copyToX = [14] ∧ encode .copyFromX = [15] ∧ encode .copyToY = [16] ∧ encode .copyFromY = [17] ∧
    encode .copyToSp = [18] ∧ encode .copyFromSp = [19]) ∧
  (∀ i ∈ [Instr.copyToX, .copyFromX, .copyToY, .copyFromY, .copyToSp, .copyFromSp], Dispatches i) ∧
  ∀ s : State,
    exec .copyToX s = .next { s with x := s.ac, pc := s.pc + 1 } ∧
    exec .copyFromX s = .next { s with ac := s.x, pc := s.pc + 1 } ∧
    exec .copyToY s = .next { s with y := s.ac, pc := s.pc + 1 } ∧
    exec .copyFromY s = .next { s with ac := s.y, pc := s.pc + 1 } ∧
    exec .copyToSp s = .next { s with sp := s.ac, pc := s.pc + 1 } ∧
    exec .copyFromSp s = .next { s with ac := s.sp, pc := s.pc + 1 }

/-! ## Control transfer and the stack instructions -/

/-- R170, R171, R172: jumps change `PC` alone; the target is not checked. That the operand of a jump that is not taken
is read is the spec's own decision D12 (R104; log entry 19). -/
def Obligations.JumpsSetPcAlone : Prop :=
  ∀ (a : Word) (s : State),
    (encode (.jump a) = [20, a] ∧ encode (.jumpIfEqual a) = [21, a] ∧ encode (.jumpIfNotEqual a) = [22, a]) ∧
    (∀ i ∈ [Instr.jump a, .jumpIfEqual a, .jumpIfNotEqual a], Dispatches i) ∧
    exec (.jump a) s = .next { s with pc := a } ∧
    exec (.jumpIfEqual a) s = .next { s with pc := if s.ac = 0 then a else s.pc + 2 } ∧
    exec (.jumpIfNotEqual a) s = .next { s with pc := if s.ac ≠ 0 then a else s.pc + 2 }

/-- R173: `Call` pushes `p + 2` and jumps; a push that faults leaves `PC` alone. That `p + 2` is what is pushed is the
spec's own decision D7 (log entry 15). The full, descending stack is the spec's own inference D3 (R77; log entry 13). -/
def Obligations.CallPushesTheReturnAddress : Prop :=
  ∀ (a : Word) (s : State), encode (.call a) = [23, a] ∧ Dispatches (.call a) ∧
    (accessible s (s.sp - 1) → ∃ t, exec (.call a) s = .next t ∧
      t = { s with pc := a, sp := s.sp - 1, mem := t.mem, bus := s.bus ++ [.write (s.sp - 1) (s.pc + 2)] } ∧
      Stored s.mem t.mem (s.sp - 1) (s.pc + 2)) ∧
    (¬ accessible s (s.sp - 1) → exec (.call a) s =
      .fault (refusedAccess { s with sp := s.sp - 1 } (s.sp - 1) (.write (s.sp - 1) (s.pc + 2))))

/-- R174: `Ret` takes `PC` from the top of the stack, with no increment. That nothing is added to the popped value is
part of the spec's own decision D7 (log entry 15), and the pop is that of D3 (R78; log entry 13). -/
def Obligations.RetPopsPc : Prop :=
  ∀ s : State, encode .ret = [24] ∧ Dispatches .ret ∧
    (accessible s s.sp → exec .ret s =
      .next { s with pc := s.mem.read s.sp.toNat, sp := s.sp + 1, bus := s.bus ++ [.read s.sp] }) ∧
    (¬ accessible s s.sp → exec .ret s = .fault (refusedAccess s s.sp (.read s.sp)))

/-- 44_control.md: a `Ret` that finds the stack as a `Call` left it resumes after the call, with `SP` back. That the
call pushes `p + 2`, and that the return adds nothing to it, is the spec's own decision D7 (log entry 15). -/
def Obligations.RetReturnsAfterTheCall : Prop :=
  ∀ (a : Word) (s t u : State), exec (.call a) s = .next t →
    u.mode = t.mode → u.cfg = t.cfg → u.sp = t.sp → u.mem.read t.sp.toNat = t.mem.read t.sp.toNat →
    ∃ v, exec .ret u = .next v ∧ v.pc = s.pc + 2 ∧ v.sp = s.sp

/-- R180: `Push`. The full, descending stack is the spec's own inference D3 (R77; log entry 13). -/
def Obligations.PushStoresAc : Prop :=
  ∀ s : State, encode .push = [27] ∧ Dispatches .push ∧
    (accessible s (s.sp - 1) → ∃ t, exec .push s = .next t ∧
      t = { s with pc := s.pc + 1, sp := s.sp - 1, mem := t.mem, bus := s.bus ++ [.write (s.sp - 1) s.ac] } ∧
      Stored s.mem t.mem (s.sp - 1) s.ac) ∧
    (¬ accessible s (s.sp - 1) → exec .push s =
      .fault (refusedAccess { s with sp := s.sp - 1 } (s.sp - 1) (.write (s.sp - 1) s.ac)))

/-- R181: `Pop`; `AC` and `SP` are as they were on a fault. The full, descending stack is the spec's own inference D3
(R78; log entry 13). -/
def Obligations.PopLoadsAc : Prop :=
  ∀ s : State, encode .pop = [28] ∧ Dispatches .pop ∧
    (accessible s s.sp → exec .pop s =
      .next { s with ac := s.mem.read s.sp.toNat, sp := s.sp + 1, pc := s.pc + 1, bus := s.bus ++ [.read s.sp] }) ∧
    (¬ accessible s s.sp → exec .pop s = .fault (refusedAccess s s.sp (.read s.sp)))

/-! ## Interrupts and the system instructions -/

/-- R185, R204, R205: an interrupt, by a due timer or by `Int` in either mode and whatever `IE` is, is taken in every
configuration that meets R9: six saves, Kernel mode, interrupts disabled, `PC` at the vector. A due timer is taken
whatever the cell at `PC` holds and wherever `PC` points (R213). That `Int` saves `p`, the register `handler`, and the
entry made again in Kernel mode are the spec's own decisions D8 and D9 (log entries 16 and 17); R205 is derived. -/
def Obligations.InterruptEntryBuildsTheFrame : Prop :=
  ∀ s : State, s.cfg.wf →
    (s.run = .running → timerDue s → ∃ t, step s = .next t ∧ Entered .timer s t) ∧
    (encode .int = [29] ∧ Dispatches .int ∧ ∃ t, exec .int s = .next t ∧ Entered .trap s t)

/-- R186: `IRet` restores `Y, X, AC, IR, PC, SP` from the six cells at `SP`, in either mode, with `PC` one further when
a trap handler returns; where one of the six may not be read the run ends there, the earlier ones restored. The one
more after a trap, and the return in User mode or with no handler, are the spec's own decisions D8 and D10 (log entries
16 and 18). -/
def Obligations.IretRestoresTheFrame : Prop :=
  ∀ s : State, encode .iret = [30] ∧ Dispatches .iret ∧
    ((∀ k < 6, accessible s (s.sp + BitVec.ofNat 32 k)) → exec .iret s =
      .next { s with
        y := stackCell s 0
        x := stackCell s 1
        ac := stackCell s 2
        ir := stackCell s 3
        pc := if s.handler = some .trap then stackCell s 4 + 1 else stackCell s 4
        sp := stackCell s 5
        mode := .user
        ie := true
        handler := none
        bus := s.bus ++ (List.range 6).map fun k => .read (s.sp + BitVec.ofNat 32 k) }) ∧
    ∀ j < 6, (∀ k < j, accessible s (s.sp + BitVec.ofNat 32 k)) → ¬ accessible s (s.sp + BitVec.ofNat 32 j) →
      exec .iret s = .fault (refusedAccess (poppedSoFar j s) (s.sp + BitVec.ofNat 32 j)
        (.read (s.sp + BitVec.ofNat 32 j)))

/-- R232: whatever the handler did, if at its `IRet` it is still the same handler's Kernel mode, `SP` is
`MEMORY_SIZE - 6` and the six frame cells are as entry wrote them, then `IRet` restores all six registers and returns
to User mode with interrupts enabled; after a trap, `PC` is one further, which is the spec's own decision D8 (R210; log
entry 16). -/
def Obligations.TrapContextIntegrity : Prop :=
  ∀ (kind : IntKind) (s t u : State), s.cfg.wf →
    (kind = .timer → s.run = .running ∧ timerDue s ∧ step s = .next t) →
    (kind = .trap → exec .int s = .next t) →
    u.cfg = t.cfg → u.mode = .kernel → u.handler = t.handler → u.sp = s.cfg.memorySize - 6 →
    (∀ a : Nat, s.cfg.memorySize.toInt - 6 ≤ a → (a : Int) < s.cfg.memorySize.toInt →
      u.mem.read a = t.mem.read a) →
    ∃ v, exec .iret u = .next v ∧
      v.sp = s.sp ∧ v.ir = s.ir ∧ v.ac = s.ac ∧ v.x = s.x ∧ v.y = s.y ∧
      v.pc = (if kind = .trap then s.pc + 1 else s.pc) ∧
      v.mode = .user ∧ v.ie = true ∧ v.handler = none

/-- R187: `End` sends `Terminate` and stops the machine, every register as it was. That `PC` and the registers keep their
values is the spec's own decision D25 (log entry 23). -/
def Obligations.EndHaltsTheMachine : Prop :=
  ∀ s : State, encode .halt = [50] ∧ Dispatches .halt ∧
    exec .halt s = .next { s with run := .halted, bus := s.bus ++ [.terminate] }

/-- R32: `Halted` is reached only by opcode 50, and a step that answers leaves the machine running otherwise. -/
def Obligations.OnlyEndHalts : Prop :=
  ∀ s t : State, step s = .next t →
    (t.run = .halted ∧ ¬ timerDue s ∧ opcodeCell s = 50) ∨
    (t.run = .running ∧ (timerDue s ∨ opcodeCell s ≠ 50))

/-! ## Reset and construction -/

/-- R38: the state after reset. `IR = 0` and `handler = None` are the spec's decision D15, `timeConstraint = 1000` and
memory that reads 0 are the model's choice (log entries 2 and 3). -/
def Obligations.ResetValues : Prop :=
  State.reset.pc = 0 ∧ State.reset.sp = 1000 ∧ State.reset.ac = 0 ∧ State.reset.x = 0 ∧ State.reset.y = 0 ∧
  State.reset.timer = 0 ∧ State.reset.mode = .user ∧ State.reset.ie = true ∧ State.reset.ir = 0 ∧
  State.reset.handler = none ∧ State.reset.run = .running ∧ State.reset.console = [] ∧
  State.reset.diagnostic = [] ∧ State.reset.bus = [] ∧ State.reset.cfg.timeConstraint = 1000 ∧
  ∀ a : Nat, State.reset.mem.read a = 0

/-- R240, R38: a machine constructed from a configuration that meets R9 and a full image holds that image and the reset
values, and meets the invariant. `IR = 0` and `handler = None` are the spec's own decision D15 (log entry 8). That from
any other configuration or image there is no machine is the model's reading of R9, R242 and U17 (log entry 27). -/
def Obligations.ConstructionLoadsTheImage : Prop :=
  ∀ (c : Config) (image : List Word),
    (c.wf → imageWf c image → ∃ s, boot c image = some s ∧ s.Inv ∧ s.cfg = c ∧ s.pc = c.resetPc ∧ s.sp = c.resetSp ∧
      s.ir = 0 ∧ s.ac = 0 ∧ s.x = 0 ∧ s.y = 0 ∧ s.timer = 0 ∧ s.mode = .user ∧ s.ie = true ∧ s.handler = none ∧
      s.run = .running ∧ s.console = [] ∧ s.diagnostic = [] ∧ s.bus = [] ∧
      ∀ (a : Nat) (v : Word), image[a]? = some v → s.mem.read a = v) ∧
    (¬ (c.wf ∧ imageWf c image) → boot c image = none)

/-! ## Invariants and rules of the whole machine -/

/-- R37 with the canonical form of memory, R9 and R29: every step keeps the invariant, from every state that meets it. -/
def Obligations.EveryStepKeepsTheInvariant : Prop :=
  ∀ s t : State, s.Inv → step s = .next t → t.Inv

/-- R37, R38: the reset state meets the invariant. -/
def Obligations.ResetMeetsTheInvariant : Prop := State.reset.Inv

/-- R225: reset enters User mode; User to Kernel is by interrupt entry only, Kernel to User by opcode 30 only. -/
def Obligations.ModeChangesOnlyByEntryAndReturn : Prop :=
  State.reset.mode = .user ∧
  ∀ s t : State, step s = .next t →
    (s.mode = .user → t.mode = .kernel → timerDue s ∨ opcodeCell s = 29) ∧
    (s.mode = .kernel → t.mode = .user → ¬ timerDue s ∧ opcodeCell s = 30)

/-- R39, R22 to R29: which opcodes write which register; every other instruction that completes leaves it alone. -/
def Obligations.RegistersChangeByTheirOpcodesOnly : Prop :=
  ∀ (i : Instr) (s t : State), exec i s = .next t →
    ((opcodeOf i).toInt ∉ [18, 23, 24, 27, 28, 29, 30] → t.sp = s.sp) ∧
    ((opcodeOf i).toInt ∉ [30] → t.ir = s.ir) ∧
    ((opcodeOf i).toInt ∉ [1, 2, 3, 4, 5, 6, 8, 10, 11, 12, 13, 15, 17, 19, 28, 30] → t.ac = s.ac) ∧
    ((opcodeOf i).toInt ∉ [14, 25, 26, 30] → t.x = s.x) ∧
    ((opcodeOf i).toInt ∉ [16, 30] → t.y = s.y) ∧
    ((opcodeOf i).toInt ∉ [29, 30] → t.mode = s.mode ∧ t.ie = s.ie ∧ t.handler = s.handler) ∧
    ((opcodeOf i).toInt ∉ [50] → t.run = s.run) ∧
    ((opcodeOf i).toInt ∉ [9] → t.console = s.console ∧ t.diagnostic = s.diagnostic) ∧
    ((opcodeOf i).toInt ∉ [8] → t.drawCount = s.drawCount) ∧
    t.timer = s.timer ∧ t.cfg = s.cfg

/-- 41 to 46: an instruction that completes changes no cell but those it stores to. -/
def Obligations.MemoryChangesAtStoredCellsOnly : Prop :=
  ∀ (i : Instr) (s t : State), exec i s = .next t →
    ∀ a : Nat, (∀ w ∈ storedCells i s, a ≠ w.toNat) → t.mem.read a = s.mem.read a

/-- R87: the requests of a step that completes are the opcode fetch, the operand fetch of a two-cell instruction and
the instruction's data requests, in this order; a timer entry has only its six writes. That the entry is a step of its
own is the spec's own decisions D4 and D5 (R120; log entry 14), and that the operand is always read is D12 (R104; log
entry 19). -/
def Obligations.BusTraceOfAStep : Prop :=
  ∀ s t : State, step s = .next t →
    (timerDue s → t.bus = s.bus ++ entryRequests s) ∧
    (¬ timerDue s → ∃ i rest, decode [opcodeCell s, operandCell s] = .ok (i, rest) ∧
      (operandOf i = none → t.bus = s.bus ++ [.read s.pc] ++ dataRequests i (afterOpcode s)) ∧
      (operandOf i ≠ none → t.bus = s.bus ++ [.read s.pc, .read (s.pc + 1)] ++ dataRequests i (afterOperand s)))

/-- R7, R67 to R70, R81: the Engine's step folds the Memory Service in. Serving the requests of a step one at a time, in
order, succeeds and leaves the service as the step leaves it, its lifetime over exactly where the machine has halted
(R69, R89); the first reply of an instruction step is the opcode. -/
def Obligations.StepsAgreeWithTheMemoryService : Prop :=
  ∀ s t : State, s.cfg.wf → step s = .next t → ∃ rs replies, t.bus = s.bus ++ rs ∧
    serveAll s.cfg.memorySize rs s.service = .ok (t.service, replies) ∧
    (timerDue s → replies = []) ∧ (¬ timerDue s → replies.head? = some (opcodeCell s))

/-- R69: `Terminate` is served with no reply and ends the service's lifetime: in any requests that are all served
nothing comes after it, and the service it leaves accepts no request. Nothing else that is served ends the service. -/
def Obligations.NothingIsServedAfterTerminate : Prop :=
  ∀ size : Word,
    (∀ m : Memory, serve size .terminate ⟨m, true⟩ = .ok (⟨m, false⟩, none)) ∧
    ∀ (rs : List BusRequest) (v w : Service) (replies : List Word), serveAll size rs v = .ok (w, replies) →
      (∀ before after : List BusRequest, rs = before ++ .terminate :: after →
        after = [] ∧ w.accepting = false ∧ ∀ r : BusRequest, serve size r w = .error .ended) ∧
      (.terminate ∉ rs → w.accepting = v.accepting)

/-- R71, R72: on the reference wire the first integer alone tells the kinds apart, for every value of the two sentinels,
which are negative and distinct; and a receiver gets back the request that was sent, whatever comes after it. A `Read` of
a negative address is not on the wire (R250). That a `Read`, a `Write` and a `Terminate` are told apart by a receiver
of this form is the model's reading of R72 (log entry 10). -/
def Obligations.WireTellsRequestsApart : Prop :=
  (Config.writeSentinel.toInt < 0 ∧ Config.terminateSentinel.toInt < 0 ∧
    Config.writeSentinel ≠ Config.terminateSentinel) ∧
  (∀ r : BusRequest, (∀ a, r = .read a → 0 ≤ a.toInt) →
    (∀ first : Word, r.wire.head? = some first → requestKind first = some r.kind) ∧
    ∀ rest : List Word, receive (r.wire ++ rest) = some (r, rest)) ∧
  ∀ r q : BusRequest, (∀ a, r = .read a → 0 ≤ a.toInt) → (∀ a, q = .read a → 0 ≤ a.toInt) →
    (r.wire.head? = q.wire.head? → r.kind = q.kind) ∧ (r.wire = q.wire → r = q)

/-- R30, R152: no step changes the configuration, and the streams and the bus trace only grow. -/
def Obligations.StreamsGrowAndConfigurationStays : Prop :=
  ∀ s t : State, step s = .next t →
    t.cfg = s.cfg ∧ s.console <+: t.console ∧ s.diagnostic <+: t.diagnostic ∧ s.bus <+: t.bus ∧
    s.bus.length < t.bus.length

/-- R29, R227: the timer counts the instruction steps taken with `IE` true, stands still while `IE` is false, and is
cleared by a timer entry. That each instruction has one timer phase, and an entry is a step of its own, is the spec's
own decisions D4 and D5 (log entry 14). -/
def Obligations.TimerCountsWhileEnabled : Prop :=
  ∀ s t : State, step s = .next t →
    (s.ie = false → t.timer = s.timer) ∧
    (s.ie = true → ¬ timerDue s → t.timer = s.timer + 1) ∧
    (timerDue s → t.timer = 0)

/-- R233: with `timeConstraint = k`, from a state with interrupts enabled in which the timer has just been cleared, through
`k` steps none of which executes `Int` (the one instruction that disables interrupts): interrupts stay enabled, none of
the `k` steps is a timer entry, and the next step is one. While interrupts are disabled no step is a timer entry, in a
timer handler either. -/
def Obligations.TimerFiresEveryKInstructions : Prop :=
  (∀ (run : Nat → State) (k : Nat), (run 0).cfg.wf → (run 0).cfg.timeConstraint.toInt = k → 1 ≤ k →
    (run 0).timer = 0 → (run 0).ie = true → (∀ j < k, step (run j) = .next (run (j + 1))) →
    (∀ j < k, opcodeCell (run j) ≠ 29) → (run k).run = .running →
    (∀ j ≤ k, (run j).ie = true) ∧
    (∀ j < k, ¬ Entered .timer (run j) (run (j + 1))) ∧
    ∃ t, step (run k) = .next t ∧ Entered .timer (run k) t) ∧
  ∀ s t : State, s.ie = false → step s = .next t → ¬ Entered .timer s t

/-- R203: with `timeConstraint <= 0` every step with interrupts enabled is an entry, and after each `IRet` the very
next step is another entry with the same saved `PC`. The storm is the spec's own decision D21 (R9, U16; log entry 27)
and rests on D5 and D6 (R131, R122; log entry 14). -/
def Obligations.NonPositiveConstraintIsAStorm : Prop :=
  ∀ s : State, s.cfg.wf → s.run = .running → s.ie = true → s.cfg.timeConstraint.toInt ≤ 0 → 0 ≤ s.timer.toInt →
    ∃ t, step s = .next t ∧ Entered .timer s t ∧
      ∀ u v : State, u.cfg = t.cfg → u.run = .running → u.timer = t.timer → u.mode = t.mode → u.handler = t.handler →
        u.sp = t.sp → FrameHolds s u.mem → exec .iret u = .next v →
        ∃ w, step v = .next w ∧ Entered .timer v w ∧ v.pc = s.pc

/-- R62, R216: a User-mode step that is no interrupt entry changes no cell of system space. -/
def Obligations.UserModeLeavesSystemSpaceAlone : Prop :=
  ∀ s t : State, s.mode = .user → step s = .next t → ¬ timerDue s → opcodeCell s ≠ 29 →
    ∀ a : Nat, s.cfg.userLimit.toInt ≤ a → t.mem.read a = s.mem.read a

/-- R73, R224: what a User-mode step does, and how it ends, does not depend on the contents of system space. That
fetches are checked too is the spec's own decision D11 (log entry 19). -/
def Obligations.UserModeCannotReadSystemSpace : Prop :=
  ∀ s t : State, s.mode = .user → SameBelow s t → SameOutcome (step s) (step t)

/-- R212, R215 to R219: which fault can be raised in which mode, with which `info`. That fetches are checked too is
the spec's own decision D11 (log entry 19), and the order of the checks and their signed comparison are D13 (R74; log
entry 20). -/
def Obligations.FaultsByMode : Prop :=
  ∀ (s final : State) (kind : FaultKind) (info : Word), s.cfg.wf → step s = .fault (.fatal kind info final) →
    kind ≠ .invalidInterruptCode ∧
    (s.mode = .kernel → kind = .boundsFault ∨ kind = .illegalOpcode) ∧
    (kind = .protectionFault → s.mode = .user ∧ s.cfg.userLimit.toInt ≤ info.toInt) ∧
    (kind = .boundsFault → info.toInt < 0 ∨ s.mode = .kernel ∧ s.cfg.memorySize.toInt ≤ info.toInt) ∧
    (kind = .illegalOpcode → info = opcodeCell s ∧ ¬ (1 ≤ info.toInt ∧ info.toInt ≤ 30) ∧ info.toInt ≠ 50)

/-- R214, R220: a step that ends in a fault has changed no cell, printed nothing and left the mode alone, and the end
state records the fault. That the end state is the one at the `raise` is the spec's own decision D14 (R220; log
entries 7 and 23). -/
def Obligations.FaultsChangeNoMemory : Prop :=
  ∀ (s final : State) (kind : FaultKind) (info : Word), s.cfg.wf → step s = .fault (.fatal kind info final) →
    final.run = .faulted kind info ∧ final.mem = s.mem ∧ final.console = s.console ∧
    final.diagnostic = s.diagnostic ∧ final.mode = s.mode ∧ final.ie = s.ie ∧ final.handler = s.handler ∧
    final.cfg = s.cfg
end

