-- ==== Sys2Proof/Laws/PerInstr.lean ====
section
/-! SUPPORT. Facts made per instruction. Family `RoundTrip`: the cells of an instruction, followed by any cells, decode
to that instruction and those cells (spec R100 to R106). -/

namespace Sys2Proof.Laws.RoundTrip

/-- Decoding what an instruction encodes to gives it back, with the rest of the cells. -/
def Statement (i : Instr) : Prop := ∀ rest, decode (encode i ++ rest) = .ok (i, rest)

theorem loadValue (value : Word) : Statement (.loadValue value) := fun _ => rfl
theorem loadAddr (addr : Word) : Statement (.loadAddr addr) := fun _ => rfl
theorem loadInd (addr : Word) : Statement (.loadInd addr) := fun _ => rfl
theorem loadIdxX (addr : Word) : Statement (.loadIdxX addr) := fun _ => rfl
theorem loadIdxY (addr : Word) : Statement (.loadIdxY addr) := fun _ => rfl
theorem loadSpX : Statement .loadSpX := fun _ => rfl
theorem store (addr : Word) : Statement (.store addr) := fun _ => rfl
theorem get : Statement .get := fun _ => rfl
theorem put (port : Word) : Statement (.put port) := fun _ => rfl
theorem addX : Statement .addX := fun _ => rfl
theorem addY : Statement .addY := fun _ => rfl
theorem subX : Statement .subX := fun _ => rfl
theorem subY : Statement .subY := fun _ => rfl
theorem copyToX : Statement .copyToX := fun _ => rfl
theorem copyFromX : Statement .copyFromX := fun _ => rfl
theorem copyToY : Statement .copyToY := fun _ => rfl
theorem copyFromY : Statement .copyFromY := fun _ => rfl
theorem copyToSp : Statement .copyToSp := fun _ => rfl
theorem copyFromSp : Statement .copyFromSp := fun _ => rfl
theorem jump (addr : Word) : Statement (.jump addr) := fun _ => rfl
theorem jumpIfEqual (addr : Word) : Statement (.jumpIfEqual addr) := fun _ => rfl
theorem jumpIfNotEqual (addr : Word) : Statement (.jumpIfNotEqual addr) := fun _ => rfl
theorem call (addr : Word) : Statement (.call addr) := fun _ => rfl
theorem ret : Statement .ret := fun _ => rfl
theorem incX : Statement .incX := fun _ => rfl
theorem decX : Statement .decX := fun _ => rfl
theorem push : Statement .push := fun _ => rfl
theorem pop : Statement .pop := fun _ => rfl
theorem int : Statement .int := fun _ => rfl
theorem iret : Statement .iret := fun _ => rfl
theorem halt : Statement .halt := fun _ => rfl

end Sys2Proof.Laws.RoundTrip
end

