-- ==== Sys2Proof/Laws/Encoding.lean ====
section
/-! SUPPORT. The opcode map and the encoder agree (spec R103 to R107). -/

namespace Sys2Proof

/-- An opcode read as a one-cell instruction is that instruction's, and it has no operand. -/
theorem decodeOpcode_zero {op : Word} {i : Instr} (h : decodeOpcode op = some (.zero i)) :
    opcodeOf i = op ∧ operandOf i = none := by
  unfold decodeOpcode at h
  split at h <;> cases h <;> exact ⟨BitVec.eq_of_toNat_eq (by rename_i hop; rw [hop]; rfl), rfl⟩

/-- An opcode read as a two-cell instruction is that instruction's, whatever the operand. -/
theorem decodeOpcode_one {op : Word} {mk : Word → Instr} (h : decodeOpcode op = some (.one mk)) (v : Word) :
    opcodeOf (mk v) = op ∧ operandOf (mk v) = some v := by
  unfold decodeOpcode at h
  split at h <;> cases h <;> exact ⟨BitVec.eq_of_toNat_eq (by rename_i hop; rw [hop]; rfl), rfl⟩

/-- The unrecognised opcodes are exactly the values outside `{1..30, 50}` (R107). -/
theorem decodeOpcode_none {op : Word} :
    decodeOpcode op = none ↔ ¬ (1 ≤ op.toInt ∧ op.toInt ≤ 30) ∧ op.toInt ≠ 50 := by
  have hi : op.toInt = if 2 * op.toNat < 2 ^ 32 then (op.toNat : Int) else (op.toNat : Int) - (2 ^ 32 : Nat) :=
    BitVec.toInt_eq_toNat_cond op
  have hlt := op.isLt
  unfold decodeOpcode
  split
  case h_32 =>
    simp only [true_iff]
    simp only [imp_false] at *
    split at hi <;> omega
  all_goals
    rename_i hop
    simp only [reduceCtorEq, false_iff]
    rw [hop] at hi
    simp only [hi]
    decide

/-- What a list of cells that decodes looks like. -/
theorem decode_eq_ok {cells rest : List Word} {i : Instr} (h : decode cells = .ok (i, rest)) :
    cells = encode i ++ rest := by
  unfold decode at h
  split at h
  · cases h
  · split at h
    · cases h
    · next hd => cases h; obtain ⟨h1, h2⟩ := decodeOpcode_zero hd; simp [encode, h1, h2]
    · next hd => cases h; rw [encode, (decodeOpcode_one hd _).1, (decodeOpcode_one hd _).2]; rfl
    · cases h

end Sys2Proof
end

