-- ==== Sys2Proof/Laws/Memory.lean ====
section
/-! SUPPORT. The laws of the cell array: what a read finds after a write (spec R82), that every operation keeps the
canonical form, and that a canonical memory is fixed by what it reads as. -/

namespace Sys2Proof.Machine.Memory

/-! ### Read after write -/

theorem read_erase_same (m : Memory) (a : Nat) : (m.erase a).read a = fill := by
  induction m with
  | nil => rfl
  | cons c m ih =>
    obtain ⟨k, v⟩ := c
    by_cases h : k = a <;> simp [erase, read, h, ih]

theorem read_erase_other {m : Memory} {a b : Nat} (h : b ≠ a) : (m.erase a).read b = m.read b := by
  induction m with
  | nil => rfl
  | cons c m ih =>
    obtain ⟨k, v⟩ := c
    by_cases hk : k = a
    · subst hk; simp [erase, read, ih, Ne.symm h]
    · simp [erase, read, hk, ih]

theorem read_insert_other {m : Memory} {a b : Nat} (v : Word) (h : b ≠ a) : (m.insert a v).read b = m.read b := by
  induction m with
  | nil => simp [insert, read, Ne.symm h]
  | cons c m ih =>
    obtain ⟨k, u⟩ := c
    by_cases hk : a < k
    · simp [insert, hk, read, Ne.symm h]
    · simp [insert, hk, read, ih]

/-- An entry put into a memory that lists no entry for that address is what a read finds. -/
theorem read_insert_same {m : Memory} {a : Nat} (v : Word) (h : ∀ c ∈ m, c.1 ≠ a) : (m.insert a v).read a = v := by
  induction m with
  | nil => simp [insert, read]
  | cons c m ih =>
    obtain ⟨k, u⟩ := c
    simp only [List.mem_cons, forall_eq_or_imp] at h
    by_cases hk : a < k
    · simp [insert, hk, read]
    · simp [insert, hk, read, h.1, ih h.2]

theorem mem_erase {m : Memory} {a : Nat} {c : Nat × Word} : c ∈ m.erase a ↔ c ∈ m ∧ c.1 ≠ a := by
  induction m with
  | nil => simp [erase]
  | cons d m ih =>
    obtain ⟨k, v⟩ := d
    by_cases h : k = a
    · simp only [erase, h, if_true, ih, List.mem_cons]
      constructor
      · rintro ⟨hc, hne⟩; exact ⟨.inr hc, hne⟩
      · rintro ⟨rfl | hc, hne⟩
        · exact absurd rfl hne
        · exact ⟨hc, hne⟩
    · simp only [erase, h, if_false, List.mem_cons, ih]
      constructor
      · rintro (rfl | ⟨hc, hne⟩)
        · exact ⟨.inl rfl, h⟩
        · exact ⟨.inr hc, hne⟩
      · rintro ⟨rfl | hc, hne⟩
        · exact .inl rfl
        · exact .inr ⟨hc, hne⟩

/-- The store/load round trip on the cell array (R82). -/
@[simp] theorem read_write_same (m : Memory) (a : Nat) (v : Word) : (m.write a v).read a = v := by
  unfold write
  split
  · next h => rw [read_erase_same, h]
  · exact read_insert_same v fun c hc => (mem_erase.1 hc).2

/-- A write leaves every other cell alone. -/
theorem read_write_other {m : Memory} {a b : Nat} (v : Word) (h : b ≠ a) : (m.write a v).read b = m.read b := by
  unfold write
  split
  · exact read_erase_other h
  · rw [read_insert_other v h, read_erase_other h]

theorem read_write (m : Memory) (a b : Nat) (v : Word) :
    (m.write a v).read b = if b = a then v else m.read b := by
  split
  · next h => rw [h, read_write_same]
  · next h => exact read_write_other v h

/-! ### The canonical form -/

theorem mem_insert {m : Memory} {a : Nat} {v : Word} {c : Nat × Word} :
    c ∈ m.insert a v ↔ c = (a, v) ∨ c ∈ m := by
  induction m with
  | nil => simp [insert]
  | cons d m ih =>
    obtain ⟨k, u⟩ := d
    by_cases h : a < k
    · simp [insert, h]
    · simp only [insert, h, if_false, List.mem_cons, ih]
      tauto

theorem pairwise_erase {m : Memory} (a : Nat) (h : m.Pairwise (fun c d => c.1 < d.1)) :
    (m.erase a).Pairwise (fun c d => c.1 < d.1) := by
  induction m with
  | nil => simp [erase]
  | cons d m ih =>
    obtain ⟨k, v⟩ := d
    rw [List.pairwise_cons] at h
    by_cases hk : k = a
    · simpa [erase, hk] using ih h.2
    · simp only [erase, hk, if_false, List.pairwise_cons]
      exact ⟨fun c hc => h.1 c (mem_erase.1 hc).1, ih h.2⟩

theorem pairwise_insert {m : Memory} {a : Nat} (v : Word) (h : m.Pairwise (fun c d => c.1 < d.1))
    (hne : ∀ c ∈ m, c.1 ≠ a) : (m.insert a v).Pairwise (fun c d => c.1 < d.1) := by
  induction m with
  | nil => simp [insert]
  | cons d m ih =>
    obtain ⟨k, u⟩ := d
    rw [List.pairwise_cons] at h
    simp only [List.mem_cons, forall_eq_or_imp] at hne
    by_cases hk : a < k
    · rw [insert, if_pos hk, List.pairwise_cons, List.pairwise_cons]
      simp only [List.mem_cons, forall_eq_or_imp]
      exact ⟨⟨hk, fun c hc => hk.trans (h.1 c hc)⟩, h.1, h.2⟩
    · rw [insert, if_neg hk, List.pairwise_cons]
      refine ⟨fun c hc => ?_, ih h.2 hne.2⟩
      rcases mem_insert.1 hc with rfl | hc
      · exact lt_of_le_of_ne (Nat.le_of_not_lt hk) hne.1
      · exact h.1 c hc

/-- A write inside the array keeps the canonical form. -/
theorem wf_write {size : Int} {m : Memory} {a : Nat} {v : Word} (h : m.wf size) (ha : (a : Int) < size) :
    (m.write a v).wf size := by
  have he : (m.erase a).wf size := ⟨pairwise_erase a h.1, fun c hc => h.2 c (mem_erase.1 hc).1⟩
  unfold write
  split
  · exact he
  · next hv =>
    refine ⟨pairwise_insert v he.1 fun c hc => (mem_erase.1 hc).2, fun c hc => ?_⟩
    rcases mem_insert.1 hc with rfl | hc
    · exact ⟨ha, hv⟩
    · exact he.2 c hc

theorem read_eq_fill_of_lt {m : Memory} {a : Nat} (h : ∀ c ∈ m, a < c.1) : m.read a = fill := by
  induction m with
  | nil => rfl
  | cons d m ih =>
    obtain ⟨k, v⟩ := d
    simp only [List.mem_cons, forall_eq_or_imp] at h
    simp [read, Nat.ne_of_gt h.1, ih h.2]

/-- Two canonical memories that read alike at every address are the same list: equal memories are equal data. -/
theorem eq_of_read_eq {size : Int} {m n : Memory} (hm : m.wf size) (hn : n.wf size)
    (h : ∀ a, m.read a = n.read a) : m = n := by
  induction m generalizing n with
  | nil =>
    cases n with
    | nil => rfl
    | cons d n =>
      obtain ⟨k, v⟩ := d
      have := h k
      simp only [read, if_true] at this
      exact absurd this.symm (hn.2 (k, v) (by simp)).2
  | cons c m ih =>
    obtain ⟨j, u⟩ := c
    have hmp := List.pairwise_cons.1 hm.1
    have hu : u ≠ fill := (hm.2 (j, u) (by simp)).2
    cases n with
    | nil =>
      have := h j
      simp only [read, if_true] at this
      exact absurd this hu
    | cons d n =>
      obtain ⟨k, v⟩ := d
      have hnp := List.pairwise_cons.1 hn.1
      have hv : v ≠ fill := (hn.2 (k, v) (by simp)).2
      have hjk : j = k := by
        rcases lt_trichotomy j k with hlt | heq | hgt
        · have h1 := h j
          rw [read_eq_fill_of_lt (m := (k, v) :: n) (by
            simp only [List.mem_cons, forall_eq_or_imp]
            exact ⟨hlt, fun c hc => hlt.trans (hnp.1 c hc)⟩)] at h1
          simp only [read, if_true] at h1
          exact absurd h1 hu
        · exact heq
        · have h1 := h k
          rw [read_eq_fill_of_lt (m := (j, u) :: m) (by
            simp only [List.mem_cons, forall_eq_or_imp]
            exact ⟨hgt, fun c hc => hgt.trans (hmp.1 c hc)⟩)] at h1
          simp only [read, if_true] at h1
          exact absurd h1.symm hv
      subst hjk
      have huv : u = v := by simpa [read] using h j
      subst huv
      have hrest : m = n := by
        refine ih ⟨hmp.2, fun c hc => hm.2 c (by simp [hc])⟩ ⟨hnp.2, fun c hc => hn.2 c (by simp [hc])⟩ fun a => ?_
        by_cases ha : a = j
        · subst ha
          rw [read_eq_fill_of_lt hmp.1, read_eq_fill_of_lt hnp.1]
        · simpa [read, Ne.symm ha] using h a
      rw [hrest]

/-! ### The initial image -/

theorem ofImageAt_addr {image : List Word} {a : Nat} {c : Nat × Word} (h : c ∈ ofImageAt a image) :
    a ≤ c.1 ∧ c.1 < a + image.length ∧ c.2 ≠ fill := by
  induction image generalizing a with
  | nil => simp [ofImageAt] at h
  | cons v vs ih =>
    unfold ofImageAt at h
    split at h
    · have := ih h
      simp only [List.length_cons]
      exact ⟨by omega, by omega, this.2.2⟩
    · next hv =>
      rcases List.mem_cons.1 h with rfl | h
      · exact ⟨le_refl _, by simp, hv⟩
      · have := ih h
        simp only [List.length_cons]
        exact ⟨by omega, by omega, this.2.2⟩

/-- The memory made of an image is canonical. -/
theorem wf_ofImage (image : List Word) : (ofImageAt 0 image).wf image.length := by
  refine ⟨?_, fun c hc => ?_⟩
  · generalize 0 = a
    induction image generalizing a with
    | nil => simp [ofImageAt]
    | cons v vs ih =>
      unfold ofImageAt
      split
      · exact ih _
      · exact List.pairwise_cons.2 ⟨fun c hc => (ofImageAt_addr hc).1, ih _⟩
  · have := ofImageAt_addr hc
    exact ⟨by omega, this.2.2⟩

/-- Each cell of the image is where the image has it. -/
theorem read_ofImageAt {image : List Word} {b a : Nat} {v : Word} (h : image[a]? = some v) :
    (ofImageAt b image).read (b + a) = v := by
  induction image generalizing b a with
  | nil => simp at h
  | cons w ws ih =>
    cases a with
    | zero =>
      simp only [List.getElem?_cons_zero, Option.some.injEq] at h
      subst h
      unfold ofImageAt
      split
      · next hw => rw [hw]; exact read_eq_fill_of_lt fun c hc => by have := (ofImageAt_addr hc).1; omega
      · simp [read]
    | succ a =>
      have h' := ih (b := b + 1) (by simpa using h)
      rw [show b + 1 + a = b + (a + 1) by omega] at h'
      unfold ofImageAt
      split
      · exact h'
      · rw [read, if_neg (by omega)]; exact h'

end Sys2Proof.Machine.Memory
end

