-- ==== Sys2Proof/Laws/State.lean ====
section
/-! SUPPORT. What each named update of the state does to each field: one lemma per field per update. -/

namespace Sys2Proof.Machine

variable (s : State)

/-! ### `setPc` (R21) -/

@[simp] theorem setPc_pc (v : Word) : (setPc v s).pc = v := rfl
@[simp] theorem setPc_sp (v : Word) : (setPc v s).sp = s.sp := rfl
@[simp] theorem setPc_ir (v : Word) : (setPc v s).ir = s.ir := rfl
@[simp] theorem setPc_ac (v : Word) : (setPc v s).ac = s.ac := rfl
@[simp] theorem setPc_x (v : Word) : (setPc v s).x = s.x := rfl
@[simp] theorem setPc_y (v : Word) : (setPc v s).y = s.y := rfl
@[simp] theorem setPc_mode (v : Word) : (setPc v s).mode = s.mode := rfl
@[simp] theorem setPc_ie (v : Word) : (setPc v s).ie = s.ie := rfl
@[simp] theorem setPc_timer (v : Word) : (setPc v s).timer = s.timer := rfl
@[simp] theorem setPc_handler (v : Word) : (setPc v s).handler = s.handler := rfl
@[simp] theorem setPc_run (v : Word) : (setPc v s).run = s.run := rfl
@[simp] theorem setPc_mem (v : Word) : (setPc v s).mem = s.mem := rfl
@[simp] theorem setPc_console (v : Word) : (setPc v s).console = s.console := rfl
@[simp] theorem setPc_diagnostic (v : Word) : (setPc v s).diagnostic = s.diagnostic := rfl
@[simp] theorem setPc_bus (v : Word) : (setPc v s).bus = s.bus := rfl
@[simp] theorem setPc_drawCount (v : Word) : (setPc v s).drawCount = s.drawCount := rfl
@[simp] theorem setPc_cfg (v : Word) : (setPc v s).cfg = s.cfg := rfl

/-! ### `setSp` (R22) -/

@[simp] theorem setSp_pc (v : Word) : (setSp v s).pc = s.pc := rfl
@[simp] theorem setSp_sp (v : Word) : (setSp v s).sp = v := rfl
@[simp] theorem setSp_ir (v : Word) : (setSp v s).ir = s.ir := rfl
@[simp] theorem setSp_ac (v : Word) : (setSp v s).ac = s.ac := rfl
@[simp] theorem setSp_x (v : Word) : (setSp v s).x = s.x := rfl
@[simp] theorem setSp_y (v : Word) : (setSp v s).y = s.y := rfl
@[simp] theorem setSp_mode (v : Word) : (setSp v s).mode = s.mode := rfl
@[simp] theorem setSp_ie (v : Word) : (setSp v s).ie = s.ie := rfl
@[simp] theorem setSp_timer (v : Word) : (setSp v s).timer = s.timer := rfl
@[simp] theorem setSp_handler (v : Word) : (setSp v s).handler = s.handler := rfl
@[simp] theorem setSp_run (v : Word) : (setSp v s).run = s.run := rfl
@[simp] theorem setSp_mem (v : Word) : (setSp v s).mem = s.mem := rfl
@[simp] theorem setSp_console (v : Word) : (setSp v s).console = s.console := rfl
@[simp] theorem setSp_diagnostic (v : Word) : (setSp v s).diagnostic = s.diagnostic := rfl
@[simp] theorem setSp_bus (v : Word) : (setSp v s).bus = s.bus := rfl
@[simp] theorem setSp_drawCount (v : Word) : (setSp v s).drawCount = s.drawCount := rfl
@[simp] theorem setSp_cfg (v : Word) : (setSp v s).cfg = s.cfg := rfl

/-! ### `setIr` (R23) -/

@[simp] theorem setIr_pc (v : Word) : (setIr v s).pc = s.pc := rfl
@[simp] theorem setIr_sp (v : Word) : (setIr v s).sp = s.sp := rfl
@[simp] theorem setIr_ir (v : Word) : (setIr v s).ir = v := rfl
@[simp] theorem setIr_ac (v : Word) : (setIr v s).ac = s.ac := rfl
@[simp] theorem setIr_x (v : Word) : (setIr v s).x = s.x := rfl
@[simp] theorem setIr_y (v : Word) : (setIr v s).y = s.y := rfl
@[simp] theorem setIr_mode (v : Word) : (setIr v s).mode = s.mode := rfl
@[simp] theorem setIr_ie (v : Word) : (setIr v s).ie = s.ie := rfl
@[simp] theorem setIr_timer (v : Word) : (setIr v s).timer = s.timer := rfl
@[simp] theorem setIr_handler (v : Word) : (setIr v s).handler = s.handler := rfl
@[simp] theorem setIr_run (v : Word) : (setIr v s).run = s.run := rfl
@[simp] theorem setIr_mem (v : Word) : (setIr v s).mem = s.mem := rfl
@[simp] theorem setIr_console (v : Word) : (setIr v s).console = s.console := rfl
@[simp] theorem setIr_diagnostic (v : Word) : (setIr v s).diagnostic = s.diagnostic := rfl
@[simp] theorem setIr_bus (v : Word) : (setIr v s).bus = s.bus := rfl
@[simp] theorem setIr_drawCount (v : Word) : (setIr v s).drawCount = s.drawCount := rfl
@[simp] theorem setIr_cfg (v : Word) : (setIr v s).cfg = s.cfg := rfl

/-! ### `setAc` (R24) -/

@[simp] theorem setAc_pc (v : Word) : (setAc v s).pc = s.pc := rfl
@[simp] theorem setAc_sp (v : Word) : (setAc v s).sp = s.sp := rfl
@[simp] theorem setAc_ir (v : Word) : (setAc v s).ir = s.ir := rfl
@[simp] theorem setAc_ac (v : Word) : (setAc v s).ac = v := rfl
@[simp] theorem setAc_x (v : Word) : (setAc v s).x = s.x := rfl
@[simp] theorem setAc_y (v : Word) : (setAc v s).y = s.y := rfl
@[simp] theorem setAc_mode (v : Word) : (setAc v s).mode = s.mode := rfl
@[simp] theorem setAc_ie (v : Word) : (setAc v s).ie = s.ie := rfl
@[simp] theorem setAc_timer (v : Word) : (setAc v s).timer = s.timer := rfl
@[simp] theorem setAc_handler (v : Word) : (setAc v s).handler = s.handler := rfl
@[simp] theorem setAc_run (v : Word) : (setAc v s).run = s.run := rfl
@[simp] theorem setAc_mem (v : Word) : (setAc v s).mem = s.mem := rfl
@[simp] theorem setAc_console (v : Word) : (setAc v s).console = s.console := rfl
@[simp] theorem setAc_diagnostic (v : Word) : (setAc v s).diagnostic = s.diagnostic := rfl
@[simp] theorem setAc_bus (v : Word) : (setAc v s).bus = s.bus := rfl
@[simp] theorem setAc_drawCount (v : Word) : (setAc v s).drawCount = s.drawCount := rfl
@[simp] theorem setAc_cfg (v : Word) : (setAc v s).cfg = s.cfg := rfl

/-! ### `setX` (R25) -/

@[simp] theorem setX_pc (v : Word) : (setX v s).pc = s.pc := rfl
@[simp] theorem setX_sp (v : Word) : (setX v s).sp = s.sp := rfl
@[simp] theorem setX_ir (v : Word) : (setX v s).ir = s.ir := rfl
@[simp] theorem setX_ac (v : Word) : (setX v s).ac = s.ac := rfl
@[simp] theorem setX_x (v : Word) : (setX v s).x = v := rfl
@[simp] theorem setX_y (v : Word) : (setX v s).y = s.y := rfl
@[simp] theorem setX_mode (v : Word) : (setX v s).mode = s.mode := rfl
@[simp] theorem setX_ie (v : Word) : (setX v s).ie = s.ie := rfl
@[simp] theorem setX_timer (v : Word) : (setX v s).timer = s.timer := rfl
@[simp] theorem setX_handler (v : Word) : (setX v s).handler = s.handler := rfl
@[simp] theorem setX_run (v : Word) : (setX v s).run = s.run := rfl
@[simp] theorem setX_mem (v : Word) : (setX v s).mem = s.mem := rfl
@[simp] theorem setX_console (v : Word) : (setX v s).console = s.console := rfl
@[simp] theorem setX_diagnostic (v : Word) : (setX v s).diagnostic = s.diagnostic := rfl
@[simp] theorem setX_bus (v : Word) : (setX v s).bus = s.bus := rfl
@[simp] theorem setX_drawCount (v : Word) : (setX v s).drawCount = s.drawCount := rfl
@[simp] theorem setX_cfg (v : Word) : (setX v s).cfg = s.cfg := rfl

/-! ### `setY` (R26) -/

@[simp] theorem setY_pc (v : Word) : (setY v s).pc = s.pc := rfl
@[simp] theorem setY_sp (v : Word) : (setY v s).sp = s.sp := rfl
@[simp] theorem setY_ir (v : Word) : (setY v s).ir = s.ir := rfl
@[simp] theorem setY_ac (v : Word) : (setY v s).ac = s.ac := rfl
@[simp] theorem setY_x (v : Word) : (setY v s).x = s.x := rfl
@[simp] theorem setY_y (v : Word) : (setY v s).y = v := rfl
@[simp] theorem setY_mode (v : Word) : (setY v s).mode = s.mode := rfl
@[simp] theorem setY_ie (v : Word) : (setY v s).ie = s.ie := rfl
@[simp] theorem setY_timer (v : Word) : (setY v s).timer = s.timer := rfl
@[simp] theorem setY_handler (v : Word) : (setY v s).handler = s.handler := rfl
@[simp] theorem setY_run (v : Word) : (setY v s).run = s.run := rfl
@[simp] theorem setY_mem (v : Word) : (setY v s).mem = s.mem := rfl
@[simp] theorem setY_console (v : Word) : (setY v s).console = s.console := rfl
@[simp] theorem setY_diagnostic (v : Word) : (setY v s).diagnostic = s.diagnostic := rfl
@[simp] theorem setY_bus (v : Word) : (setY v s).bus = s.bus := rfl
@[simp] theorem setY_drawCount (v : Word) : (setY v s).drawCount = s.drawCount := rfl
@[simp] theorem setY_cfg (v : Word) : (setY v s).cfg = s.cfg := rfl

/-! ### `setMode` (R27) -/

@[simp] theorem setMode_pc (v : Mode) : (setMode v s).pc = s.pc := rfl
@[simp] theorem setMode_sp (v : Mode) : (setMode v s).sp = s.sp := rfl
@[simp] theorem setMode_ir (v : Mode) : (setMode v s).ir = s.ir := rfl
@[simp] theorem setMode_ac (v : Mode) : (setMode v s).ac = s.ac := rfl
@[simp] theorem setMode_x (v : Mode) : (setMode v s).x = s.x := rfl
@[simp] theorem setMode_y (v : Mode) : (setMode v s).y = s.y := rfl
@[simp] theorem setMode_mode (v : Mode) : (setMode v s).mode = v := rfl
@[simp] theorem setMode_ie (v : Mode) : (setMode v s).ie = s.ie := rfl
@[simp] theorem setMode_timer (v : Mode) : (setMode v s).timer = s.timer := rfl
@[simp] theorem setMode_handler (v : Mode) : (setMode v s).handler = s.handler := rfl
@[simp] theorem setMode_run (v : Mode) : (setMode v s).run = s.run := rfl
@[simp] theorem setMode_mem (v : Mode) : (setMode v s).mem = s.mem := rfl
@[simp] theorem setMode_console (v : Mode) : (setMode v s).console = s.console := rfl
@[simp] theorem setMode_diagnostic (v : Mode) : (setMode v s).diagnostic = s.diagnostic := rfl
@[simp] theorem setMode_bus (v : Mode) : (setMode v s).bus = s.bus := rfl
@[simp] theorem setMode_drawCount (v : Mode) : (setMode v s).drawCount = s.drawCount := rfl
@[simp] theorem setMode_cfg (v : Mode) : (setMode v s).cfg = s.cfg := rfl

/-! ### `setIe` (R28) -/

@[simp] theorem setIe_pc (v : Bool) : (setIe v s).pc = s.pc := rfl
@[simp] theorem setIe_sp (v : Bool) : (setIe v s).sp = s.sp := rfl
@[simp] theorem setIe_ir (v : Bool) : (setIe v s).ir = s.ir := rfl
@[simp] theorem setIe_ac (v : Bool) : (setIe v s).ac = s.ac := rfl
@[simp] theorem setIe_x (v : Bool) : (setIe v s).x = s.x := rfl
@[simp] theorem setIe_y (v : Bool) : (setIe v s).y = s.y := rfl
@[simp] theorem setIe_mode (v : Bool) : (setIe v s).mode = s.mode := rfl
@[simp] theorem setIe_ie (v : Bool) : (setIe v s).ie = v := rfl
@[simp] theorem setIe_timer (v : Bool) : (setIe v s).timer = s.timer := rfl
@[simp] theorem setIe_handler (v : Bool) : (setIe v s).handler = s.handler := rfl
@[simp] theorem setIe_run (v : Bool) : (setIe v s).run = s.run := rfl
@[simp] theorem setIe_mem (v : Bool) : (setIe v s).mem = s.mem := rfl
@[simp] theorem setIe_console (v : Bool) : (setIe v s).console = s.console := rfl
@[simp] theorem setIe_diagnostic (v : Bool) : (setIe v s).diagnostic = s.diagnostic := rfl
@[simp] theorem setIe_bus (v : Bool) : (setIe v s).bus = s.bus := rfl
@[simp] theorem setIe_drawCount (v : Bool) : (setIe v s).drawCount = s.drawCount := rfl
@[simp] theorem setIe_cfg (v : Bool) : (setIe v s).cfg = s.cfg := rfl

/-! ### `setTimer` (R29) -/

@[simp] theorem setTimer_pc (v : Word) : (setTimer v s).pc = s.pc := rfl
@[simp] theorem setTimer_sp (v : Word) : (setTimer v s).sp = s.sp := rfl
@[simp] theorem setTimer_ir (v : Word) : (setTimer v s).ir = s.ir := rfl
@[simp] theorem setTimer_ac (v : Word) : (setTimer v s).ac = s.ac := rfl
@[simp] theorem setTimer_x (v : Word) : (setTimer v s).x = s.x := rfl
@[simp] theorem setTimer_y (v : Word) : (setTimer v s).y = s.y := rfl
@[simp] theorem setTimer_mode (v : Word) : (setTimer v s).mode = s.mode := rfl
@[simp] theorem setTimer_ie (v : Word) : (setTimer v s).ie = s.ie := rfl
@[simp] theorem setTimer_timer (v : Word) : (setTimer v s).timer = v := rfl
@[simp] theorem setTimer_handler (v : Word) : (setTimer v s).handler = s.handler := rfl
@[simp] theorem setTimer_run (v : Word) : (setTimer v s).run = s.run := rfl
@[simp] theorem setTimer_mem (v : Word) : (setTimer v s).mem = s.mem := rfl
@[simp] theorem setTimer_console (v : Word) : (setTimer v s).console = s.console := rfl
@[simp] theorem setTimer_diagnostic (v : Word) : (setTimer v s).diagnostic = s.diagnostic := rfl
@[simp] theorem setTimer_bus (v : Word) : (setTimer v s).bus = s.bus := rfl
@[simp] theorem setTimer_drawCount (v : Word) : (setTimer v s).drawCount = s.drawCount := rfl
@[simp] theorem setTimer_cfg (v : Word) : (setTimer v s).cfg = s.cfg := rfl

/-! ### `setHandler` (R31) -/

@[simp] theorem setHandler_pc (v : Option IntKind) : (setHandler v s).pc = s.pc := rfl
@[simp] theorem setHandler_sp (v : Option IntKind) : (setHandler v s).sp = s.sp := rfl
@[simp] theorem setHandler_ir (v : Option IntKind) : (setHandler v s).ir = s.ir := rfl
@[simp] theorem setHandler_ac (v : Option IntKind) : (setHandler v s).ac = s.ac := rfl
@[simp] theorem setHandler_x (v : Option IntKind) : (setHandler v s).x = s.x := rfl
@[simp] theorem setHandler_y (v : Option IntKind) : (setHandler v s).y = s.y := rfl
@[simp] theorem setHandler_mode (v : Option IntKind) : (setHandler v s).mode = s.mode := rfl
@[simp] theorem setHandler_ie (v : Option IntKind) : (setHandler v s).ie = s.ie := rfl
@[simp] theorem setHandler_timer (v : Option IntKind) : (setHandler v s).timer = s.timer := rfl
@[simp] theorem setHandler_handler (v : Option IntKind) : (setHandler v s).handler = v := rfl
@[simp] theorem setHandler_run (v : Option IntKind) : (setHandler v s).run = s.run := rfl
@[simp] theorem setHandler_mem (v : Option IntKind) : (setHandler v s).mem = s.mem := rfl
@[simp] theorem setHandler_console (v : Option IntKind) : (setHandler v s).console = s.console := rfl
@[simp] theorem setHandler_diagnostic (v : Option IntKind) : (setHandler v s).diagnostic = s.diagnostic := rfl
@[simp] theorem setHandler_bus (v : Option IntKind) : (setHandler v s).bus = s.bus := rfl
@[simp] theorem setHandler_drawCount (v : Option IntKind) : (setHandler v s).drawCount = s.drawCount := rfl
@[simp] theorem setHandler_cfg (v : Option IntKind) : (setHandler v s).cfg = s.cfg := rfl

/-! ### `setRun` (R32) -/

@[simp] theorem setRun_pc (v : Run) : (setRun v s).pc = s.pc := rfl
@[simp] theorem setRun_sp (v : Run) : (setRun v s).sp = s.sp := rfl
@[simp] theorem setRun_ir (v : Run) : (setRun v s).ir = s.ir := rfl
@[simp] theorem setRun_ac (v : Run) : (setRun v s).ac = s.ac := rfl
@[simp] theorem setRun_x (v : Run) : (setRun v s).x = s.x := rfl
@[simp] theorem setRun_y (v : Run) : (setRun v s).y = s.y := rfl
@[simp] theorem setRun_mode (v : Run) : (setRun v s).mode = s.mode := rfl
@[simp] theorem setRun_ie (v : Run) : (setRun v s).ie = s.ie := rfl
@[simp] theorem setRun_timer (v : Run) : (setRun v s).timer = s.timer := rfl
@[simp] theorem setRun_handler (v : Run) : (setRun v s).handler = s.handler := rfl
@[simp] theorem setRun_run (v : Run) : (setRun v s).run = v := rfl
@[simp] theorem setRun_mem (v : Run) : (setRun v s).mem = s.mem := rfl
@[simp] theorem setRun_console (v : Run) : (setRun v s).console = s.console := rfl
@[simp] theorem setRun_diagnostic (v : Run) : (setRun v s).diagnostic = s.diagnostic := rfl
@[simp] theorem setRun_bus (v : Run) : (setRun v s).bus = s.bus := rfl
@[simp] theorem setRun_drawCount (v : Run) : (setRun v s).drawCount = s.drawCount := rfl
@[simp] theorem setRun_cfg (v : Run) : (setRun v s).cfg = s.cfg := rfl

/-! ### `setMem` (R35) -/

@[simp] theorem setMem_pc (v : Memory) : (setMem v s).pc = s.pc := rfl
@[simp] theorem setMem_sp (v : Memory) : (setMem v s).sp = s.sp := rfl
@[simp] theorem setMem_ir (v : Memory) : (setMem v s).ir = s.ir := rfl
@[simp] theorem setMem_ac (v : Memory) : (setMem v s).ac = s.ac := rfl
@[simp] theorem setMem_x (v : Memory) : (setMem v s).x = s.x := rfl
@[simp] theorem setMem_y (v : Memory) : (setMem v s).y = s.y := rfl
@[simp] theorem setMem_mode (v : Memory) : (setMem v s).mode = s.mode := rfl
@[simp] theorem setMem_ie (v : Memory) : (setMem v s).ie = s.ie := rfl
@[simp] theorem setMem_timer (v : Memory) : (setMem v s).timer = s.timer := rfl
@[simp] theorem setMem_handler (v : Memory) : (setMem v s).handler = s.handler := rfl
@[simp] theorem setMem_run (v : Memory) : (setMem v s).run = s.run := rfl
@[simp] theorem setMem_mem (v : Memory) : (setMem v s).mem = v := rfl
@[simp] theorem setMem_console (v : Memory) : (setMem v s).console = s.console := rfl
@[simp] theorem setMem_diagnostic (v : Memory) : (setMem v s).diagnostic = s.diagnostic := rfl
@[simp] theorem setMem_bus (v : Memory) : (setMem v s).bus = s.bus := rfl
@[simp] theorem setMem_drawCount (v : Memory) : (setMem v s).drawCount = s.drawCount := rfl
@[simp] theorem setMem_cfg (v : Memory) : (setMem v s).cfg = s.cfg := rfl

/-! ### `advance` (R126) -/

@[simp] theorem advance_pc (n : Word) : (advance n s).pc = s.pc + n := rfl
@[simp] theorem advance_sp (n : Word) : (advance n s).sp = s.sp := rfl
@[simp] theorem advance_ir (n : Word) : (advance n s).ir = s.ir := rfl
@[simp] theorem advance_ac (n : Word) : (advance n s).ac = s.ac := rfl
@[simp] theorem advance_x (n : Word) : (advance n s).x = s.x := rfl
@[simp] theorem advance_y (n : Word) : (advance n s).y = s.y := rfl
@[simp] theorem advance_mode (n : Word) : (advance n s).mode = s.mode := rfl
@[simp] theorem advance_ie (n : Word) : (advance n s).ie = s.ie := rfl
@[simp] theorem advance_timer (n : Word) : (advance n s).timer = s.timer := rfl
@[simp] theorem advance_handler (n : Word) : (advance n s).handler = s.handler := rfl
@[simp] theorem advance_run (n : Word) : (advance n s).run = s.run := rfl
@[simp] theorem advance_mem (n : Word) : (advance n s).mem = s.mem := rfl
@[simp] theorem advance_console (n : Word) : (advance n s).console = s.console := rfl
@[simp] theorem advance_diagnostic (n : Word) : (advance n s).diagnostic = s.diagnostic := rfl
@[simp] theorem advance_bus (n : Word) : (advance n s).bus = s.bus := rfl
@[simp] theorem advance_drawCount (n : Word) : (advance n s).drawCount = s.drawCount := rfl
@[simp] theorem advance_cfg (n : Word) : (advance n s).cfg = s.cfg := rfl

/-! ### `transfer` (R175) -/

@[simp] theorem transfer_pc (a : Word) : (transfer a s).pc = a := rfl
@[simp] theorem transfer_sp (a : Word) : (transfer a s).sp = s.sp := rfl
@[simp] theorem transfer_ir (a : Word) : (transfer a s).ir = s.ir := rfl
@[simp] theorem transfer_ac (a : Word) : (transfer a s).ac = s.ac := rfl
@[simp] theorem transfer_x (a : Word) : (transfer a s).x = s.x := rfl
@[simp] theorem transfer_y (a : Word) : (transfer a s).y = s.y := rfl
@[simp] theorem transfer_mode (a : Word) : (transfer a s).mode = s.mode := rfl
@[simp] theorem transfer_ie (a : Word) : (transfer a s).ie = s.ie := rfl
@[simp] theorem transfer_timer (a : Word) : (transfer a s).timer = s.timer := rfl
@[simp] theorem transfer_handler (a : Word) : (transfer a s).handler = s.handler := rfl
@[simp] theorem transfer_run (a : Word) : (transfer a s).run = s.run := rfl
@[simp] theorem transfer_mem (a : Word) : (transfer a s).mem = s.mem := rfl
@[simp] theorem transfer_console (a : Word) : (transfer a s).console = s.console := rfl
@[simp] theorem transfer_diagnostic (a : Word) : (transfer a s).diagnostic = s.diagnostic := rfl
@[simp] theorem transfer_bus (a : Word) : (transfer a s).bus = s.bus := rfl
@[simp] theorem transfer_drawCount (a : Word) : (transfer a s).drawCount = s.drawCount := rfl
@[simp] theorem transfer_cfg (a : Word) : (transfer a s).cfg = s.cfg := rfl

/-! ### `request` (R87) -/

@[simp] theorem request_pc (r : BusRequest) : (request r s).pc = s.pc := rfl
@[simp] theorem request_sp (r : BusRequest) : (request r s).sp = s.sp := rfl
@[simp] theorem request_ir (r : BusRequest) : (request r s).ir = s.ir := rfl
@[simp] theorem request_ac (r : BusRequest) : (request r s).ac = s.ac := rfl
@[simp] theorem request_x (r : BusRequest) : (request r s).x = s.x := rfl
@[simp] theorem request_y (r : BusRequest) : (request r s).y = s.y := rfl
@[simp] theorem request_mode (r : BusRequest) : (request r s).mode = s.mode := rfl
@[simp] theorem request_ie (r : BusRequest) : (request r s).ie = s.ie := rfl
@[simp] theorem request_timer (r : BusRequest) : (request r s).timer = s.timer := rfl
@[simp] theorem request_handler (r : BusRequest) : (request r s).handler = s.handler := rfl
@[simp] theorem request_run (r : BusRequest) : (request r s).run = s.run := rfl
@[simp] theorem request_mem (r : BusRequest) : (request r s).mem = s.mem := rfl
@[simp] theorem request_console (r : BusRequest) : (request r s).console = s.console := rfl
@[simp] theorem request_diagnostic (r : BusRequest) : (request r s).diagnostic = s.diagnostic := rfl
@[simp] theorem request_bus (r : BusRequest) : (request r s).bus = s.bus ++ [r] := rfl
@[simp] theorem request_drawCount (r : BusRequest) : (request r s).drawCount = s.drawCount := rfl
@[simp] theorem request_cfg (r : BusRequest) : (request r s).cfg = s.cfg := rfl

/-! ### `emitConsole` (R152) -/

@[simp] theorem emitConsole_pc (e : ConsoleEvent) : (emitConsole e s).pc = s.pc := rfl
@[simp] theorem emitConsole_sp (e : ConsoleEvent) : (emitConsole e s).sp = s.sp := rfl
@[simp] theorem emitConsole_ir (e : ConsoleEvent) : (emitConsole e s).ir = s.ir := rfl
@[simp] theorem emitConsole_ac (e : ConsoleEvent) : (emitConsole e s).ac = s.ac := rfl
@[simp] theorem emitConsole_x (e : ConsoleEvent) : (emitConsole e s).x = s.x := rfl
@[simp] theorem emitConsole_y (e : ConsoleEvent) : (emitConsole e s).y = s.y := rfl
@[simp] theorem emitConsole_mode (e : ConsoleEvent) : (emitConsole e s).mode = s.mode := rfl
@[simp] theorem emitConsole_ie (e : ConsoleEvent) : (emitConsole e s).ie = s.ie := rfl
@[simp] theorem emitConsole_timer (e : ConsoleEvent) : (emitConsole e s).timer = s.timer := rfl
@[simp] theorem emitConsole_handler (e : ConsoleEvent) : (emitConsole e s).handler = s.handler := rfl
@[simp] theorem emitConsole_run (e : ConsoleEvent) : (emitConsole e s).run = s.run := rfl
@[simp] theorem emitConsole_mem (e : ConsoleEvent) : (emitConsole e s).mem = s.mem := rfl
@[simp] theorem emitConsole_console (e : ConsoleEvent) : (emitConsole e s).console = s.console ++ [e] := rfl
@[simp] theorem emitConsole_diagnostic (e : ConsoleEvent) : (emitConsole e s).diagnostic = s.diagnostic := rfl
@[simp] theorem emitConsole_bus (e : ConsoleEvent) : (emitConsole e s).bus = s.bus := rfl
@[simp] theorem emitConsole_drawCount (e : ConsoleEvent) : (emitConsole e s).drawCount = s.drawCount := rfl
@[simp] theorem emitConsole_cfg (e : ConsoleEvent) : (emitConsole e s).cfg = s.cfg := rfl

/-! ### `emitDiagnostic` (R152) -/

@[simp] theorem emitDiagnostic_pc (e : DiagnosticEvent) : (emitDiagnostic e s).pc = s.pc := rfl
@[simp] theorem emitDiagnostic_sp (e : DiagnosticEvent) : (emitDiagnostic e s).sp = s.sp := rfl
@[simp] theorem emitDiagnostic_ir (e : DiagnosticEvent) : (emitDiagnostic e s).ir = s.ir := rfl
@[simp] theorem emitDiagnostic_ac (e : DiagnosticEvent) : (emitDiagnostic e s).ac = s.ac := rfl
@[simp] theorem emitDiagnostic_x (e : DiagnosticEvent) : (emitDiagnostic e s).x = s.x := rfl
@[simp] theorem emitDiagnostic_y (e : DiagnosticEvent) : (emitDiagnostic e s).y = s.y := rfl
@[simp] theorem emitDiagnostic_mode (e : DiagnosticEvent) : (emitDiagnostic e s).mode = s.mode := rfl
@[simp] theorem emitDiagnostic_ie (e : DiagnosticEvent) : (emitDiagnostic e s).ie = s.ie := rfl
@[simp] theorem emitDiagnostic_timer (e : DiagnosticEvent) : (emitDiagnostic e s).timer = s.timer := rfl
@[simp] theorem emitDiagnostic_handler (e : DiagnosticEvent) : (emitDiagnostic e s).handler = s.handler := rfl
@[simp] theorem emitDiagnostic_run (e : DiagnosticEvent) : (emitDiagnostic e s).run = s.run := rfl
@[simp] theorem emitDiagnostic_mem (e : DiagnosticEvent) : (emitDiagnostic e s).mem = s.mem := rfl
@[simp] theorem emitDiagnostic_console (e : DiagnosticEvent) : (emitDiagnostic e s).console = s.console := rfl
@[simp] theorem emitDiagnostic_diagnostic (e : DiagnosticEvent) : (emitDiagnostic e s).diagnostic = s.diagnostic ++ [e] := rfl
@[simp] theorem emitDiagnostic_bus (e : DiagnosticEvent) : (emitDiagnostic e s).bus = s.bus := rfl
@[simp] theorem emitDiagnostic_drawCount (e : DiagnosticEvent) : (emitDiagnostic e s).drawCount = s.drawCount := rfl
@[simp] theorem emitDiagnostic_cfg (e : DiagnosticEvent) : (emitDiagnostic e s).cfg = s.cfg := rfl

/-! ### `countDraw` (R150) -/

@[simp] theorem countDraw_pc : (countDraw s).pc = s.pc := rfl
@[simp] theorem countDraw_sp : (countDraw s).sp = s.sp := rfl
@[simp] theorem countDraw_ir : (countDraw s).ir = s.ir := rfl
@[simp] theorem countDraw_ac : (countDraw s).ac = s.ac := rfl
@[simp] theorem countDraw_x : (countDraw s).x = s.x := rfl
@[simp] theorem countDraw_y : (countDraw s).y = s.y := rfl
@[simp] theorem countDraw_mode : (countDraw s).mode = s.mode := rfl
@[simp] theorem countDraw_ie : (countDraw s).ie = s.ie := rfl
@[simp] theorem countDraw_timer : (countDraw s).timer = s.timer := rfl
@[simp] theorem countDraw_handler : (countDraw s).handler = s.handler := rfl
@[simp] theorem countDraw_run : (countDraw s).run = s.run := rfl
@[simp] theorem countDraw_mem : (countDraw s).mem = s.mem := rfl
@[simp] theorem countDraw_console : (countDraw s).console = s.console := rfl
@[simp] theorem countDraw_diagnostic : (countDraw s).diagnostic = s.diagnostic := rfl
@[simp] theorem countDraw_bus : (countDraw s).bus = s.bus := rfl
@[simp] theorem countDraw_drawCount : (countDraw s).drawCount = s.drawCount + 1 := rfl
@[simp] theorem countDraw_cfg : (countDraw s).cfg = s.cfg := rfl

/-! ### `timerTick` (R122) -/

@[simp] theorem timerTick_pc : (timerTick s).pc = s.pc := by unfold timerTick; split <;> rfl
@[simp] theorem timerTick_sp : (timerTick s).sp = s.sp := by unfold timerTick; split <;> rfl
@[simp] theorem timerTick_ir : (timerTick s).ir = s.ir := by unfold timerTick; split <;> rfl
@[simp] theorem timerTick_ac : (timerTick s).ac = s.ac := by unfold timerTick; split <;> rfl
@[simp] theorem timerTick_x : (timerTick s).x = s.x := by unfold timerTick; split <;> rfl
@[simp] theorem timerTick_y : (timerTick s).y = s.y := by unfold timerTick; split <;> rfl
@[simp] theorem timerTick_mode : (timerTick s).mode = s.mode := by unfold timerTick; split <;> rfl
@[simp] theorem timerTick_ie : (timerTick s).ie = s.ie := by unfold timerTick; split <;> rfl
@[simp] theorem timerTick_timer : (timerTick s).timer = if s.ie then s.timer + 1 else s.timer := by
  unfold timerTick; split <;> rfl
@[simp] theorem timerTick_handler : (timerTick s).handler = s.handler := by unfold timerTick; split <;> rfl
@[simp] theorem timerTick_run : (timerTick s).run = s.run := by unfold timerTick; split <;> rfl
@[simp] theorem timerTick_mem : (timerTick s).mem = s.mem := by unfold timerTick; split <;> rfl
@[simp] theorem timerTick_console : (timerTick s).console = s.console := by unfold timerTick; split <;> rfl
@[simp] theorem timerTick_diagnostic : (timerTick s).diagnostic = s.diagnostic := by unfold timerTick; split <;> rfl
@[simp] theorem timerTick_bus : (timerTick s).bus = s.bus := by unfold timerTick; split <;> rfl
@[simp] theorem timerTick_drawCount : (timerTick s).drawCount = s.drawCount := by unfold timerTick; split <;> rfl
@[simp] theorem timerTick_cfg : (timerTick s).cfg = s.cfg := by unfold timerTick; split <;> rfl

end Sys2Proof.Machine
end

