-- ==== Sys2Proof/Laws/Ops.lean ====
section
/-! SUPPORT. One lemma per shared operation that says everything it can do, for proofs to cite instead of unfolding. -/

namespace Sys2Proof.Machine

variable {α β : Type}

@[simp] theorem andThen_next (a : α) (k : α → Out β) : andThen (.next a) k = k a := rfl
@[simp] theorem andThen_fault (f : Fault) (k : α → Out β) : andThen (.fault f) k = .fault f := rfl
@[simp] theorem andThen_refused (r : Refusal) (k : α → Out β) : andThen (.refused r) k = .refused r := rfl
@[simp] theorem andThen_raise (kind : FaultKind) (info : Word) (s : State) (k : α → Out β) :
    andThen (raise kind info s) k = raise kind info s := rfl

/-- A chain answers a next state exactly where both parts do. -/
theorem andThen_eq_next {o : Out α} {k : α → Out β} {b : β} :
    andThen o k = .next b ↔ ∃ a, o = .next a ∧ k a = .next b := by
  cases o <;> simp

/-- A chain faults where its first part does, or where its second part does. -/
theorem andThen_eq_fault {o : Out α} {k : α → Out β} {f : Fault} :
    andThen o k = .fault f ↔ o = .fault f ∨ ∃ a, o = .next a ∧ k a = .fault f := by
  cases o <;> simp

/-! ### Addresses -/

/-- The key of an accessible address is its signed value. -/
theorem toNat_of_inBounds {s : State} {a : Word} (h : inBounds s a) : (a.toNat : Int) = a.toInt := by
  have := h.1
  rw [BitVec.toInt_eq_toNat_cond] at *
  split at this <;> omega

/-- In Kernel mode no address is refused (R73). -/
theorem not_denied_of_kernel {s : State} (h : s.mode = .kernel) (a : Word) : ¬ denied s a := by
  simp [denied, h]

/-- Whether an address is accessible depends on the mode and the configuration only. -/
theorem accessible_congr {s t : State} (hm : t.mode = s.mode) (hc : t.cfg = s.cfg) (a : Word) :
    accessible t a ↔ accessible s a := by
  simp only [accessible, denied, inBounds, hm, hc]

/-! ### The access primitives (R75, R76) -/

theorem memRead_of_accessible {s : State} {a : Word} (h : accessible s a) :
    memRead a s = .next (s.mem.read a.toNat, request (.read a) s) := by
  rw [memRead, if_neg h.1, if_pos h.2]

theorem memWrite_of_accessible {s : State} {a v : Word} (h : accessible s a) :
    memWrite a v s = .next (setMem (s.mem.write a.toNat v) (request (.write a v) s)) := by
  rw [memWrite, if_neg h.1, if_pos h.2]

/-- What a read that answers has done. -/
theorem memRead_eq_next {s : State} {a : Word} {r : Word × State} (h : memRead a s = .next r) :
    accessible s a ∧ r = (s.mem.read a.toNat, request (.read a) s) := by
  unfold memRead at h
  split at h
  · cases h
  · split at h
    · cases h; exact ⟨⟨‹_›, ‹_›⟩, rfl⟩
    · cases h

/-- What a write that answers has done. -/
theorem memWrite_eq_next {s t : State} {a v : Word} (h : memWrite a v s = .next t) :
    accessible s a ∧ t = setMem (s.mem.write a.toNat v) (request (.write a v) s) := by
  unfold memWrite at h
  split at h
  · cases h
  · split at h
    · cases h; exact ⟨⟨‹_›, ‹_›⟩, rfl⟩
    · cases h

/-- How a read ends the run: the permission check first, with no request, then the bounds check (R74). -/
theorem memRead_eq_fault {s : State} {a : Word} {f : Fault} (h : memRead a s = .fault f) :
    (denied s a ∧ f = .fatal .protectionFault a (setRun (.faulted .protectionFault a) s)) ∨
    (¬ denied s a ∧ ¬ inBounds s a ∧
      f = .fatal .boundsFault a (setRun (.faulted .boundsFault a) (request (.read a) s))) := by
  unfold memRead raise at h
  split at h
  · cases h; exact .inl ⟨‹_›, rfl⟩
  · split at h
    · cases h
    · cases h; exact .inr ⟨‹_›, ‹_›, rfl⟩

/-- How a write ends the run; no cell changes (R76). -/
theorem memWrite_eq_fault {s : State} {a v : Word} {f : Fault} (h : memWrite a v s = .fault f) :
    (denied s a ∧ f = .fatal .protectionFault a (setRun (.faulted .protectionFault a) s)) ∨
    (¬ denied s a ∧ ¬ inBounds s a ∧
      f = .fatal .boundsFault a (setRun (.faulted .boundsFault a) (request (.write a v) s))) := by
  unfold memWrite raise at h
  split at h
  · cases h; exact .inl ⟨‹_›, rfl⟩
  · split at h
    · cases h
    · cases h; exact .inr ⟨‹_›, ‹_›, rfl⟩

/-! ### The stack primitives (R77, R78) -/

theorem push_of_accessible {s : State} {v : Word} (h : accessible s (s.sp - 1)) :
    push v s = .next (setMem (s.mem.write (s.sp - 1).toNat v) (request (.write (s.sp - 1) v) (setSp (s.sp - 1) s))) :=
  memWrite_of_accessible (s := setSp (s.sp - 1) s) h

theorem push_eq_next {s t : State} {v : Word} (h : push v s = .next t) :
    accessible s (s.sp - 1) ∧
    t = setMem (s.mem.write (s.sp - 1).toNat v) (request (.write (s.sp - 1) v) (setSp (s.sp - 1) s)) :=
  memWrite_eq_next (s := setSp (s.sp - 1) s) h

theorem pop_of_accessible {s : State} (h : accessible s s.sp) :
    pop s = .next (s.mem.read s.sp.toNat, setSp (s.sp + 1) (request (.read s.sp) s)) := by
  rw [pop, memRead_of_accessible h]; rfl

theorem pop_eq_next {s : State} {r : Word × State} (h : pop s = .next r) :
    accessible s s.sp ∧ r = (s.mem.read s.sp.toNat, setSp (s.sp + 1) (request (.read s.sp) s)) := by
  obtain ⟨q, hq, hr⟩ := andThen_eq_next.1 h
  obtain ⟨ha, rfl⟩ := memRead_eq_next hq
  cases hr
  exact ⟨ha, rfl⟩

/-- A push at an accessible address succeeds; what the next push needs to know of it. -/
theorem push_succeeds {s : State} (v : Word) (h : accessible s (s.sp - 1)) :
    ∃ t, push v s = .next t ∧ t.sp = s.sp - 1 ∧ t.mode = s.mode ∧ t.cfg = s.cfg :=
  ⟨_, push_of_accessible h, rfl, rfl, rfl⟩

/-- A pop at an accessible address succeeds; what the next pop needs to know of it. -/
theorem pop_succeeds {s : State} (h : accessible s s.sp) :
    ∃ v t, pop s = .next (v, t) ∧ t.sp = s.sp + 1 ∧ t.mode = s.mode ∧ t.cfg = s.cfg :=
  ⟨_, _, pop_of_accessible h, rfl, rfl, rfl⟩

/-- A pop that ends the run leaves `SP` as it was (R181). -/
theorem pop_eq_fault {s : State} {f : Fault} (h : pop s = .fault f) : memRead s.sp s = .fault f := by
  rcases andThen_eq_fault.1 h with h | ⟨_, _, h⟩
  · exact h
  · cases h

/-! ### The range of a draw (R150) -/

theorem drawValue_range (n : Nat) : 1 ≤ (drawValue n).toInt ∧ (drawValue n).toInt ≤ 100 := by
  have h := (Config.freeDraw n).isLt
  have h31 : 2 * ((Config.freeDraw n).val + 1) < 2 ^ 32 := by omega
  rw [drawValue, BitVec.toInt_ofNat', Int.bmod_eq_of_le] <;> omega

/-! ### Taking an interrupt (R204, R205) -/

/-- The six pushes of an entry, on an array of cells: `SP, PC, IR, AC, X, Y` downward from `MEMORY_SIZE - 1` (R205). -/
def frameWrites (s : State) : Memory :=
  (((((s.mem.write (s.cfg.memorySize - 1).toNat s.sp).write (s.cfg.memorySize - 2).toNat s.pc).write
    (s.cfg.memorySize - 3).toNat s.ir).write (s.cfg.memorySize - 4).toNat s.ac).write
    (s.cfg.memorySize - 5).toNat s.x).write (s.cfg.memorySize - 6).toNat s.y

/-- The requests of an entry, in order (R185, R205). -/
def frameRequests (s : State) : List BusRequest :=
  [.write (s.cfg.memorySize - 1) s.sp, .write (s.cfg.memorySize - 2) s.pc, .write (s.cfg.memorySize - 3) s.ir,
   .write (s.cfg.memorySize - 4) s.ac, .write (s.cfg.memorySize - 5) s.x, .write (s.cfg.memorySize - 6) s.y]

/-- The state an entry that answers leaves. -/
def entered (kind : IntKind) (s : State) : State :=
  { s with
    mode := .kernel
    sp := s.cfg.memorySize - 6
    ie := false
    timer := if kind = .timer then 0 else s.timer
    pc := vector s.cfg kind
    handler := some kind
    mem := frameWrites s
    bus := s.bus ++ frameRequests s }

/-- The frame addresses are cells of the array in every configuration that meets R9. -/
theorem frame_inBounds {c : Config} (h : c.wf) {k : Nat} (hk : 1 ≤ k ∧ k ≤ 6) :
    (c.memorySize - BitVec.ofNat 32 k).toInt = c.memorySize.toInt - k := by
  have h6 := h.1
  have hlt := BitVec.toInt_lt (x := c.memorySize)
  rw [BitVec.toInt_sub]
  have : (BitVec.ofNat 32 k).toInt = k := by
    rw [BitVec.toInt_ofNat', Int.bmod_eq_of_le] <;> omega
  rw [this, Int.bmod_eq_of_le] <;> omega

/-- The frame addresses as keys of the cell array. -/
theorem frame_toNat {c : Config} (h : c.wf) {k : Nat} (hk : 1 ≤ k ∧ k ≤ 6) :
    (c.memorySize - BitVec.ofNat 32 k).toNat = c.memorySize.toNat - k := by
  have h6 := h.1
  rw [BitVec.toInt_eq_toNat_cond] at h6
  have := c.memorySize.isLt
  split at h6 <;> bv_omega

/-- The six cells an entry writes, by key (R205). -/
theorem frameWrites_eq {s : State} (h : s.cfg.wf) :
    frameWrites s = (((((s.mem.write (s.cfg.memorySize.toNat - 1) s.sp).write (s.cfg.memorySize.toNat - 2) s.pc).write
      (s.cfg.memorySize.toNat - 3) s.ir).write (s.cfg.memorySize.toNat - 4) s.ac).write
      (s.cfg.memorySize.toNat - 5) s.x).write (s.cfg.memorySize.toNat - 6) s.y := by
  simp only [frameWrites]
  rw [← frame_toNat h (k := 1) (by decide), ← frame_toNat h (k := 2) (by decide), ← frame_toNat h (k := 3) (by decide),
    ← frame_toNat h (k := 4) (by decide), ← frame_toNat h (k := 5) (by decide), ← frame_toNat h (k := 6) (by decide)]
  rfl

/-- In a configuration that meets R9 the size is its own key. -/
theorem memorySize_toNat {c : Config} (h : c.wf) : (c.memorySize.toNat : Int) = c.memorySize.toInt := by
  have h6 := h.1
  rw [BitVec.toInt_eq_toNat_cond] at *
  split at h6 <;> omega

/-- An entry keeps the canonical form. -/
theorem wf_frameWrites {s : State} (h : s.cfg.wf) (hm : s.mem.wf s.cfg.memorySize.toInt) :
    (frameWrites s).wf s.cfg.memorySize.toInt := by
  have h6 := h.1
  have hn := memorySize_toNat h
  rw [frameWrites_eq h]
  refine Memory.wf_write (Memory.wf_write (Memory.wf_write (Memory.wf_write (Memory.wf_write (Memory.wf_write hm ?_) ?_)
    ?_) ?_) ?_) ?_ <;> omega

/-- One cell below `a - j`. -/
theorem sub_sub_one {j k : Nat} (a : Word) (h : k = j + 1) : a - BitVec.ofNat 32 j - 1 = a - BitVec.ofNat 32 k := by
  subst h; bv_omega

/-- The addresses of the second to sixth push of an entry. -/
theorem frame_addresses (a : Word) :
    a - 1 - 1 = a - 2 ∧ a - 2 - 1 = a - 3 ∧ a - 3 - 1 = a - 4 ∧ a - 4 - 1 = a - 5 ∧ a - 5 - 1 = a - 6 :=
  ⟨sub_sub_one (j := 1) a rfl, sub_sub_one (j := 2) a rfl, sub_sub_one (j := 3) a rfl, sub_sub_one (j := 4) a rfl,
    sub_sub_one (j := 5) a rfl⟩

/-- An entry answers exactly where its six pushes are inside the array, and leaves `entered`. -/
theorem interruptEntry_eq_next {kind : IntKind} {s t : State} (h : interruptEntry kind s = .next t) :
    t = entered kind s := by
  unfold interruptEntry at h
  simp only [andThen_eq_next] at h
  obtain ⟨s1, h1, s2, h2, s3, h3, s4, h4, s5, h5, s6, h6, ht⟩ := h
  obtain ⟨-, rfl⟩ := push_eq_next h1
  obtain ⟨-, rfl⟩ := push_eq_next h2
  obtain ⟨-, rfl⟩ := push_eq_next h3
  obtain ⟨-, rfl⟩ := push_eq_next h4
  obtain ⟨-, rfl⟩ := push_eq_next h5
  obtain ⟨-, rfl⟩ := push_eq_next h6
  cases ht
  clear h1 h2 h3 h4 h5 h6
  obtain ⟨e2, e3, e4, e5, e6⟩ := frame_addresses s.cfg.memorySize
  simp only [BitVec.ofNat_eq_ofNat] at e2 e3 e4 e5 e6
  apply State.ext <;> simp [entered, frameWrites, frameRequests, e2, e3, e4, e5, e6, -BitVec.toNat_sub]

/-- In every configuration that meets R9 an entry succeeds (R185: "none in a sane configuration"). -/
theorem interruptEntry_of_wf (kind : IntKind) {s : State} (h : s.cfg.wf) :
    interruptEntry kind s = .next (entered kind s) := by
  have acc : ∀ (u : State) (k : Nat), 1 ≤ k ∧ k ≤ 6 → u.mode = .kernel → u.cfg = s.cfg →
      u.sp - 1 = s.cfg.memorySize - BitVec.ofNat 32 k → accessible u (u.sp - 1) := by
    intro u k hk hu hc hsp
    have h6 := h.1
    refine ⟨not_denied_of_kernel hu _, ?_⟩
    unfold inBounds
    rw [hsp, frame_inBounds h hk, hc]
    omega
  obtain ⟨e2, e3, e4, e5, e6⟩ := frame_addresses s.cfg.memorySize
  obtain ⟨s1, h1, p1, m1, c1⟩ := push_succeeds s.sp
    (acc (setSp s.cfg.memorySize (setMode .kernel s)) 1 (by decide) rfl rfl rfl)
  simp only [setSp_sp, setSp_mode, setSp_cfg, setMode_mode, setMode_cfg] at p1 m1 c1
  obtain ⟨s2, h2, p2, m2, c2⟩ := push_succeeds s1.pc (acc s1 2 (by decide) m1 c1 (by rw [p1]; exact e2))
  obtain ⟨s3, h3, p3, m3, c3⟩ := push_succeeds s2.ir
    (acc (setIe false s2) 3 (by decide) (m2.trans m1) (c2.trans c1) (by rw [setIe_sp, p2, p1, e2]; exact e3))
  obtain ⟨s4, h4, p4, m4, c4⟩ := push_succeeds s3.ac
    (acc s3 4 (by decide) (m3.trans (m2.trans m1)) (c3.trans (c2.trans c1))
      (by rw [p3, setIe_sp, p2, p1, e2, e3]; exact e4))
  obtain ⟨s5, h5, p5, m5, c5⟩ := push_succeeds s4.x
    (acc s4 5 (by decide) (m4.trans (m3.trans (m2.trans m1))) (c4.trans (c3.trans (c2.trans c1)))
      (by rw [p4, p3, setIe_sp, p2, p1, e2, e3, e4]; exact e5))
  obtain ⟨s6, h6, -⟩ := push_succeeds s5.y
    (acc s5 6 (by decide) (m5.trans (m4.trans (m3.trans (m2.trans m1))))
      (c5.trans (c4.trans (c3.trans (c2.trans c1)))) (by rw [p5, p4, p3, setIe_sp, p2, p1, e2, e3, e4, e5]; exact e6))
  have ht : ∃ t, interruptEntry kind s = .next t := by
    simp only [interruptEntry, h1, h2, h3, h4, h5, h6, andThen_next]
    exact ⟨_, rfl⟩
  obtain ⟨t, ht⟩ := ht
  rw [ht, interruptEntry_eq_next ht]

/-! ### Returning from an interrupt (R186) -/

/-- The state a return that answers leaves. -/
def returned (s : State) : State :=
  { s with
    y := s.mem.read s.sp.toNat
    x := s.mem.read (s.sp + 1).toNat
    ac := s.mem.read (s.sp + 2).toNat
    ir := s.mem.read (s.sp + 3).toNat
    pc := if s.handler = some .trap then s.mem.read (s.sp + 4).toNat + 1 else s.mem.read (s.sp + 4).toNat
    sp := s.mem.read (s.sp + 5).toNat
    mode := .user
    ie := true
    handler := none
    bus := s.bus ++ [.read s.sp, .read (s.sp + 1), .read (s.sp + 2), .read (s.sp + 3), .read (s.sp + 4),
      .read (s.sp + 5)] }

/-- One cell above `a + j`. -/
theorem add_add_one {j k : Nat} (a : Word) (h : k = j + 1) : a + BitVec.ofNat 32 j + 1 = a + BitVec.ofNat 32 k := by
  subst h; bv_omega

/-- The addresses of the third to sixth pop of a return. -/
theorem return_addresses (a : Word) :
    a + 1 + 1 = a + 2 ∧ a + 2 + 1 = a + 3 ∧ a + 3 + 1 = a + 4 ∧ a + 4 + 1 = a + 5 :=
  ⟨add_add_one (j := 1) a rfl, add_add_one (j := 2) a rfl, add_add_one (j := 3) a rfl, add_add_one (j := 4) a rfl⟩

/-- A return answers only where the six cells from `SP` upward may be read, and leaves `returned`. -/
theorem interruptReturn_eq_next {s t : State} (h : interruptReturn s = .next t) :
    (∀ k < 6, accessible s (s.sp + BitVec.ofNat 32 k)) ∧ t = returned s := by
  unfold interruptReturn at h
  simp only [andThen_eq_next] at h
  obtain ⟨r1, h1, r2, h2, r3, h3, r4, h4, r5, h5, r6, h6, ht⟩ := h
  obtain ⟨a1, rfl⟩ := pop_eq_next h1
  obtain ⟨a2, rfl⟩ := pop_eq_next h2
  obtain ⟨a3, rfl⟩ := pop_eq_next h3
  obtain ⟨a4, rfl⟩ := pop_eq_next h4
  obtain ⟨a5, rfl⟩ := pop_eq_next h5
  obtain ⟨a6, rfl⟩ := pop_eq_next h6
  cases ht
  clear h1 h2 h3 h4 h5 h6
  obtain ⟨e2, e3, e4, e5⟩ := return_addresses s.sp
  simp only [setSp_sp, setY_sp, setX_sp, setAc_sp, setIr_sp, e2, e3, e4, e5] at a2 a3 a4 a5 a6
  replace a2 := (accessible_congr (s := s) (by simp) (by simp) _).1 a2
  replace a3 := (accessible_congr (s := s) (by simp) (by simp) _).1 a3
  replace a4 := (accessible_congr (s := s) (by simp) (by simp) _).1 a4
  replace a5 := (accessible_congr (s := s) (by simp) (by simp) _).1 a5
  replace a6 := (accessible_congr (s := s) (by simp) (by simp) _).1 a6
  constructor
  · intro k hk
    interval_cases k
    · rw [BitVec.add_zero]; exact a1
    · exact a2
    · exact a3
    · exact a4
    · exact a5
    · exact a6
  · simp only [BitVec.ofNat_eq_ofNat] at e2 e3 e4 e5
    apply State.ext <;> simp [returned, e2, e3, e4, e5, -BitVec.toNat_add]

theorem interruptReturn_of_accessible {s : State} (h : ∀ k < 6, accessible s (s.sp + BitVec.ofNat 32 k)) :
    interruptReturn s = .next (returned s) := by
  have acc : ∀ (u : State) (k : Nat), k < 6 → u.mode = s.mode → u.cfg = s.cfg →
      u.sp = s.sp + BitVec.ofNat 32 k → accessible u u.sp := by
    intro u k hk hm hc hsp
    rw [accessible_congr hm hc, hsp]
    exact h k hk
  obtain ⟨e2, e3, e4, e5⟩ := return_addresses s.sp
  obtain ⟨v1, s1, h1, p1, m1, c1⟩ := pop_succeeds (acc s 0 (by decide) rfl rfl (BitVec.add_zero _).symm)
  obtain ⟨v2, s2, h2, p2, m2, c2⟩ := pop_succeeds (acc (setY v1 s1) 1 (by decide) m1 c1 p1)
  obtain ⟨v3, s3, h3, p3, m3, c3⟩ := pop_succeeds
    (acc (setX v2 s2) 2 (by decide) (m2.trans m1) (c2.trans c1) (by rw [setX_sp, p2, setY_sp, p1]; exact e2))
  obtain ⟨v4, s4, h4, p4, m4, c4⟩ := pop_succeeds
    (acc (setAc v3 s3) 3 (by decide) (m3.trans (m2.trans m1)) (c3.trans (c2.trans c1))
      (by rw [setAc_sp, p3, setX_sp, p2, setY_sp, p1, e2]; exact e3))
  obtain ⟨v5, s5, h5, p5, m5, c5⟩ := pop_succeeds
    (acc (setIr v4 s4) 4 (by decide) (m4.trans (m3.trans (m2.trans m1))) (c4.trans (c3.trans (c2.trans c1)))
      (by rw [setIr_sp, p4, setAc_sp, p3, setX_sp, p2, setY_sp, p1, e2, e3]; exact e4))
  obtain ⟨v6, s6, h6, -⟩ := pop_succeeds
    (acc s5 5 (by decide) (m5.trans (m4.trans (m3.trans (m2.trans m1))))
      (c5.trans (c4.trans (c3.trans (c2.trans c1))))
      (by rw [p5, setIr_sp, p4, setAc_sp, p3, setX_sp, p2, setY_sp, p1, e2, e3, e4]; exact e5))
  have ht : ∃ t, interruptReturn s = .next t := by
    simp only [interruptReturn, h1, h2, h3, h4, h5, h6, andThen_next]
    exact ⟨_, rfl⟩
  obtain ⟨t, ht⟩ := ht
  rw [ht, (interruptReturn_eq_next ht).2]

/-! ### Fetch (R123 to R125) and the cycle (R130) -/

/-- The state after the opcode fetch. -/
def opcodeFetched (s : State) : State := setIr (s.mem.read s.pc.toNat) (request (.read s.pc) s)

/-- The state after the operand fetch. -/
def operandFetched (s : State) : State := request (.read (s.pc + 1)) (opcodeFetched s)

/-- A fetch that answers: the opcode cell was readable and is an opcode, and so was the operand cell where there is
one. -/
theorem fetch_eq_next {s : State} {r : Instr × State} (h : fetch s = .next r) :
    accessible s s.pc ∧
    (decodeOpcode (s.mem.read s.pc.toNat) = some (.zero r.1) ∧ r.2 = opcodeFetched s ∨
     ∃ mk, decodeOpcode (s.mem.read s.pc.toNat) = some (.one mk) ∧ accessible s (s.pc + 1) ∧
       r = (mk (s.mem.read (s.pc + 1).toNat), operandFetched s)) := by
  unfold fetch at h
  obtain ⟨q, hq, h⟩ := andThen_eq_next.1 h
  obtain ⟨ha, rfl⟩ := memRead_eq_next hq
  refine ⟨ha, ?_⟩
  simp only at h
  split at h
  · cases h
  · next i hd => cases h; exact .inl ⟨hd, rfl⟩
  · next mk hd =>
    obtain ⟨o, ho, h⟩ := andThen_eq_next.1 h
    obtain ⟨hb, rfl⟩ := memRead_eq_next ho
    cases h
    exact .inr ⟨mk, hd, hb, rfl⟩

/-- What a step that answers has done: a timer entry, or one fetched instruction executed. -/
theorem step_eq_next {s t : State} (h : step s = .next t) :
    s.run = .running ∧
    (timerDue s ∧ interruptEntry .timer s = .next t ∨
     ¬ timerDue s ∧ ∃ r, fetch (timerTick s) = .next r ∧ exec r.1 r.2 = .next t) := by
  unfold step cycle at h
  split at h
  · next hr =>
    refine ⟨hr, ?_⟩
    split at h
    · exact .inl ⟨‹_›, h⟩
    · exact .inr ⟨‹_›, andThen_eq_next.1 h⟩
  · cases h
  · cases h

/-- How a running step ends the run. -/
theorem step_eq_fault {s : State} {f : Fault} (h : step s = .fault f) :
    (s.run ≠ .running ∧ f = .notRunning s) ∨
    (s.run = .running ∧ timerDue s ∧ interruptEntry .timer s = .fault f) ∨
    (s.run = .running ∧ ¬ timerDue s ∧ (fetch (timerTick s) = .fault f ∨
      ∃ r, fetch (timerTick s) = .next r ∧ exec r.1 r.2 = .fault f)) := by
  unfold step cycle at h
  split at h
  · next hr =>
    split at h
    · exact .inr (.inl ⟨hr, ‹_›, h⟩)
    · exact .inr (.inr ⟨hr, ‹_›, andThen_eq_fault.1 h⟩)
  · next hr => cases h; exact .inl ⟨by simp [hr], rfl⟩
  · next hr => cases h; exact .inl ⟨by simp [hr], rfl⟩

end Sys2Proof.Machine
end

