-- ==== Sys2Proof/Laws/Exec.lean ====
section
/-! SUPPORT. Once, for every instruction: the state a completed one leaves, and how one ends the run. Proofs about all
instructions cite these and go by cases on `executed`, never through the meanings. -/

namespace Sys2Proof.Machine

/-- The state an instruction that completes leaves. -/
def executed (i : Instr) (s : State) : State :=
  match i with
  | .loadValue v => { s with ac := v, pc := s.pc + 2 }
  | .loadAddr a => { s with ac := s.mem.read a.toNat, pc := s.pc + 2, bus := s.bus ++ [.read a] }
  | .loadInd a => { s with
      ac := s.mem.read (s.mem.read a.toNat).toNat
      pc := s.pc + 2
      bus := s.bus ++ [.read a, .read (s.mem.read a.toNat)] }
  | .loadIdxX a => { s with ac := s.mem.read (a + s.x).toNat, pc := s.pc + 2, bus := s.bus ++ [.read (a + s.x)] }
  | .loadIdxY a => { s with ac := s.mem.read (a + s.y).toNat, pc := s.pc + 2, bus := s.bus ++ [.read (a + s.y)] }
  | .loadSpX => { s with ac := s.mem.read (s.sp + s.x).toNat, pc := s.pc + 1, bus := s.bus ++ [.read (s.sp + s.x)] }
  | .store a => { s with mem := s.mem.write a.toNat s.ac, pc := s.pc + 2, bus := s.bus ++ [.write a s.ac] }
  | .get => { s with ac := drawValue s.drawCount, pc := s.pc + 1, drawCount := s.drawCount + 1 }
  | .put port => { s with
      console := s.console ++ (if port = 1 then [.putInt s.ac] else if port = 2 then [.putChar s.ac] else [])
      diagnostic := s.diagnostic ++ (if port = 1 ∨ port = 2 then [] else [.badPort port])
      pc := s.pc + 2 }
  | .addX => { s with ac := s.ac + s.x, pc := s.pc + 1 }
  | .addY => { s with ac := s.ac + s.y, pc := s.pc + 1 }
  | .subX => { s with ac := s.ac - s.x, pc := s.pc + 1 }
  | .subY => { s with ac := s.ac - s.y, pc := s.pc + 1 }
  | .copyToX => { s with x := s.ac, pc := s.pc + 1 }
  | .copyFromX => { s with ac := s.x, pc := s.pc + 1 }
  | .copyToY => { s with y := s.ac, pc := s.pc + 1 }
  | .copyFromY => { s with ac := s.y, pc := s.pc + 1 }
  | .copyToSp => { s with sp := s.ac, pc := s.pc + 1 }
  | .copyFromSp => { s with ac := s.sp, pc := s.pc + 1 }
  | .jump a => { s with pc := a }
  | .jumpIfEqual a => { s with pc := if s.ac = 0 then a else s.pc + 2 }
  | .jumpIfNotEqual a => { s with pc := if s.ac = 0 then s.pc + 2 else a }
  | .call a => { s with
      pc := a
      sp := s.sp - 1
      mem := s.mem.write (s.sp - 1).toNat (s.pc + 2)
      bus := s.bus ++ [.write (s.sp - 1) (s.pc + 2)] }
  | .ret => { s with pc := s.mem.read s.sp.toNat, sp := s.sp + 1, bus := s.bus ++ [.read s.sp] }
  | .incX => { s with x := s.x + 1, pc := s.pc + 1 }
  | .decX => { s with x := s.x - 1, pc := s.pc + 1 }
  | .push => { s with
      pc := s.pc + 1
      sp := s.sp - 1
      mem := s.mem.write (s.sp - 1).toNat s.ac
      bus := s.bus ++ [.write (s.sp - 1) s.ac] }
  | .pop => { s with ac := s.mem.read s.sp.toNat, sp := s.sp + 1, pc := s.pc + 1, bus := s.bus ++ [.read s.sp] }
  | .int => entered .trap s
  | .iret => returned s
  | .halt => { s with run := .halted, bus := s.bus ++ [.terminate] }

/-- The addresses an instruction accesses under the checks of the mode it runs in; the six of `Int` are accessed in
Kernel mode and are not among them. -/
def accesses (i : Instr) (s : State) : List Word :=
  match i with
  | .loadAddr a | .store a => [a]
  | .loadInd a => [a, s.mem.read a.toNat]
  | .loadIdxX a => [a + s.x]
  | .loadIdxY a => [a + s.y]
  | .loadSpX => [s.sp + s.x]
  | .call _ | .push => [s.sp - 1]
  | .ret | .pop => [s.sp]
  | .iret => (List.range 6).map fun k => s.sp + BitVec.ofNat 32 k
  | .loadValue _ | .get | .put _ | .addX | .addY | .subX | .subY | .copyToX | .copyFromX | .copyToY | .copyFromY
  | .copyToSp | .copyFromSp | .jump _ | .jumpIfEqual _ | .jumpIfNotEqual _ | .incX | .decX | .int | .halt => []

theorem loadAc_eq_next {ea n : Word} {s t : State} (h : loadAc ea n s = .next t) :
    accessible s ea ∧
      t = { s with ac := s.mem.read ea.toNat, pc := s.pc + n, bus := s.bus ++ [.read ea] } := by
  obtain ⟨r, hr, h⟩ := andThen_eq_next.1 h
  obtain ⟨ha, rfl⟩ := memRead_eq_next hr
  cases h
  exact ⟨ha, rfl⟩

theorem loadAc_of_accessible {ea : Word} (n : Word) {s : State} (h : accessible s ea) :
    loadAc ea n s = .next { s with ac := s.mem.read ea.toNat, pc := s.pc + n, bus := s.bus ++ [.read ea] } := by
  rw [loadAc, memRead_of_accessible h]; rfl

/-- An instruction that completes had every access allowed, and leaves `executed`. -/
theorem exec_eq_next {i : Instr} {s t : State} (h : exec i s = .next t) :
    (∀ a ∈ accesses i s, accessible s a) ∧ t = executed i s := by
  cases i
  case loadAddr a =>
    obtain ⟨ha, rfl⟩ := loadAc_eq_next h
    exact ⟨by simpa [accesses, directAddress] using ha, rfl⟩
  case loadIdxX a =>
    obtain ⟨ha, rfl⟩ := loadAc_eq_next h
    exact ⟨by simpa [accesses, indexedXAddress] using ha, rfl⟩
  case loadIdxY a =>
    obtain ⟨ha, rfl⟩ := loadAc_eq_next h
    exact ⟨by simpa [accesses, indexedYAddress] using ha, rfl⟩
  case loadSpX =>
    obtain ⟨ha, rfl⟩ := loadAc_eq_next h
    exact ⟨by simpa [accesses, stackXAddress] using ha, rfl⟩
  case loadInd a =>
    obtain ⟨r, hr, h⟩ := andThen_eq_next.1 h
    obtain ⟨ha, rfl⟩ := memRead_eq_next hr
    obtain ⟨hb, rfl⟩ := loadAc_eq_next h
    refine ⟨by simpa [accesses] using ⟨ha, hb⟩, ?_⟩
    apply State.ext <;> simp [executed]
  case store a =>
    obtain ⟨u, hu, h⟩ := andThen_eq_next.1 h
    obtain ⟨ha, rfl⟩ := memWrite_eq_next hu
    cases h
    exact ⟨by simpa [accesses, directAddress] using ha, rfl⟩
  case call a =>
    obtain ⟨u, hu, h⟩ := andThen_eq_next.1 h
    obtain ⟨ha, rfl⟩ := push_eq_next hu
    cases h
    exact ⟨by simpa [accesses] using ha, rfl⟩
  case push =>
    obtain ⟨u, hu, h⟩ := andThen_eq_next.1 h
    obtain ⟨ha, rfl⟩ := push_eq_next hu
    cases h
    exact ⟨by simpa [accesses] using ha, rfl⟩
  case ret =>
    obtain ⟨r, hr, h⟩ := andThen_eq_next.1 h
    obtain ⟨ha, rfl⟩ := pop_eq_next hr
    cases h
    exact ⟨by simpa [accesses] using ha, rfl⟩
  case pop =>
    obtain ⟨r, hr, h⟩ := andThen_eq_next.1 h
    obtain ⟨ha, rfl⟩ := pop_eq_next hr
    cases h
    exact ⟨by simpa [accesses] using ha, rfl⟩
  case int => exact ⟨by simp [accesses], interruptEntry_eq_next h⟩
  case iret => exact ⟨by simpa [accesses] using (interruptReturn_eq_next h).1, (interruptReturn_eq_next h).2⟩
  case put port =>
    cases h
    refine ⟨by simp [accesses], ?_⟩
    by_cases h1 : port = 1
    · subst h1; apply State.ext <;> simp [executed]
    by_cases h2 : port = 2
    · subst h2; apply State.ext <;> simp [executed]
    simp only [BitVec.ofNat_eq_ofNat] at h1 h2
    apply State.ext <;> simp [executed, h1, h2]
  case jumpIfEqual a =>
    cases h
    refine ⟨by simp [accesses], ?_⟩
    by_cases h1 : s.ac = 0#32 <;> simp [executed, acIsZero, h1, transfer, advance, setPc]
  case jumpIfNotEqual a =>
    cases h
    refine ⟨by simp [accesses], ?_⟩
    by_cases h1 : s.ac = 0#32 <;> simp [executed, acIsZero, h1, transfer, advance, setPc]
  all_goals
    cases h
    exact ⟨by simp [accesses], rfl⟩

/-- Where every access of an instruction is allowed, it completes; `Int` does in a configuration that meets R9. -/
theorem exec_of_accessible {i : Instr} {s : State} (h : ∀ a ∈ accesses i s, accessible s a)
    (hw : i = .int → s.cfg.wf) : exec i s = .next (executed i s) := by
  have key : ∃ t, exec i s = .next t := by
    cases i
    case loadAddr a => exact ⟨_, loadAc_of_accessible _ (h _ (by simp [accesses, directAddress]))⟩
    case loadIdxX a => exact ⟨_, loadAc_of_accessible _ (h _ (by simp [accesses, indexedXAddress]))⟩
    case loadIdxY a => exact ⟨_, loadAc_of_accessible _ (h _ (by simp [accesses, indexedYAddress]))⟩
    case loadSpX => exact ⟨_, loadAc_of_accessible _ (h _ (by simp [accesses, stackXAddress]))⟩
    case loadInd a =>
      have ha : accessible s a := h _ (by simp [accesses])
      have hb : accessible s (s.mem.read a.toNat) := h _ (by simp [accesses])
      have h1 : execLoadInd a s = loadAc (s.mem.read a.toNat) 2 (request (.read a) s) := by
        rw [execLoadInd, indirectAddress, memRead_of_accessible ha]; rfl
      exact ⟨_, h1.trans (loadAc_of_accessible _ hb)⟩
    case store a =>
      show ∃ t, execStore a s = .next t
      rw [execStore, directAddress, memWrite_of_accessible (h _ (by simp [accesses]))]
      exact ⟨_, rfl⟩
    case call a =>
      show ∃ t, execCall a s = .next t
      rw [execCall, push_of_accessible (h _ (by simp [accesses]))]
      exact ⟨_, rfl⟩
    case push =>
      show ∃ t, execPush s = .next t
      rw [execPush, push_of_accessible (h _ (by simp [accesses]))]
      exact ⟨_, rfl⟩
    case ret =>
      show ∃ t, execRet s = .next t
      rw [execRet, pop_of_accessible (h _ (by simp [accesses]))]
      exact ⟨_, rfl⟩
    case pop =>
      show ∃ t, execPop s = .next t
      rw [execPop, pop_of_accessible (h _ (by simp [accesses]))]
      exact ⟨_, rfl⟩
    case int => exact ⟨_, interruptEntry_of_wf .trap (hw rfl)⟩
    case iret => exact ⟨_, interruptReturn_of_accessible fun k hk => h _ (by simp [accesses]; exact ⟨k, hk, rfl⟩)⟩
    all_goals exact ⟨_, rfl⟩
  obtain ⟨t, ht⟩ := key
  rw [ht, (exec_eq_next ht).2]

/-- An access at `a` that is not allowed ends the run with this fault, in `s`; `r` is the request it would send. -/
def accessFault (s : State) (a : Word) (r : BusRequest) : Fault :=
  if denied s a then .fatal .protectionFault a (setRun (.faulted .protectionFault a) s)
  else .fatal .boundsFault a (setRun (.faulted .boundsFault a) (request r s))

theorem memRead_of_not_accessible {s : State} {a : Word} (h : ¬ accessible s a) :
    memRead a s = .fault (accessFault s a (.read a)) := by
  unfold memRead accessFault
  split
  · rfl
  · next hd => rw [if_neg fun hb => h ⟨hd, hb⟩]; rfl

theorem memWrite_of_not_accessible {s : State} {a v : Word} (h : ¬ accessible s a) :
    memWrite a v s = .fault (accessFault s a (.write a v)) := by
  unfold memWrite accessFault
  split
  · rfl
  · next hd => rw [if_neg fun hb => h ⟨hd, hb⟩]; rfl

theorem push_of_not_accessible {s : State} {v : Word} (h : ¬ accessible s (s.sp - 1)) :
    push v s = .fault (accessFault (setSp (s.sp - 1) s) (s.sp - 1) (.write (s.sp - 1) v)) :=
  memWrite_of_not_accessible (s := setSp (s.sp - 1) s) h

theorem pop_of_not_accessible {s : State} (h : ¬ accessible s s.sp) :
    pop s = .fault (accessFault s s.sp (.read s.sp)) := by
  rw [pop, memRead_of_not_accessible h]; rfl

theorem memRead_fault_iff {s : State} {a : Word} {f : Fault} :
    memRead a s = .fault f ↔ ¬ accessible s a ∧ f = accessFault s a (.read a) := by
  constructor
  · intro h
    by_cases ha : accessible s a
    · rw [memRead_of_accessible ha] at h; cases h
    · rw [memRead_of_not_accessible ha] at h; cases h; exact ⟨ha, rfl⟩
  · rintro ⟨h, rfl⟩; exact memRead_of_not_accessible h

theorem memWrite_fault_iff {s : State} {a v : Word} {f : Fault} :
    memWrite a v s = .fault f ↔ ¬ accessible s a ∧ f = accessFault s a (.write a v) := by
  constructor
  · intro h
    by_cases ha : accessible s a
    · rw [memWrite_of_accessible ha] at h; cases h
    · rw [memWrite_of_not_accessible ha] at h; cases h; exact ⟨ha, rfl⟩
  · rintro ⟨h, rfl⟩; exact memWrite_of_not_accessible h

/-- `u` is `s` but for registers, the timer and the bus trace: nothing that outlives the run has changed. -/
structure Quiet (s u : State) : Prop where
  mem : u.mem = s.mem
  mode : u.mode = s.mode
  ie : u.ie = s.ie
  handler : u.handler = s.handler
  console : u.console = s.console
  diagnostic : u.diagnostic = s.diagnostic
  cfg : u.cfg = s.cfg

theorem Quiet.trans {s u v : State} (h : Quiet s u) (k : Quiet u v) : Quiet s v :=
  ⟨k.1.trans h.1, k.2.trans h.2, k.3.trans h.3, k.4.trans h.4, k.5.trans h.5, k.6.trans h.6, k.7.trans h.7⟩

/-- What the fault of an access that is not allowed carries. -/
theorem accessFault_fatal {u final : State} {a info : Word} {r : BusRequest} {kind : FaultKind}
    (h : accessFault u a r = .fatal kind info final) :
    (kind = .protectionFault ∧ denied u a ∨ kind = .boundsFault ∧ ¬ denied u a) ∧ info = a ∧
      final.run = .faulted kind info ∧ Quiet u final := by
  unfold accessFault at h
  split at h
  · cases h; exact ⟨.inl ⟨rfl, ‹_›⟩, rfl, rfl, ⟨rfl, rfl, rfl, rfl, rfl, rfl, rfl⟩⟩
  · cases h; exact ⟨.inr ⟨rfl, ‹_›⟩, rfl, rfl, ⟨rfl, rfl, rfl, rfl, rfl, rfl, rfl⟩⟩

/-- How an instruction ends the run, in a configuration that meets R9: at an access that is not allowed, before
anything that outlives the run has changed. -/
theorem exec_eq_fault {i : Instr} {s : State} {f : Fault} (hw : s.cfg.wf) (h : exec i s = .fault f) :
    ∃ u a r, Quiet s u ∧ ¬ accessible s a ∧ f = accessFault u a r := by
  have load : ∀ {ea n : Word}, loadAc ea n s = .fault f → ∃ u a r, Quiet s u ∧ ¬ accessible s a ∧ f = accessFault u a r := by
    intro ea n h
    rcases andThen_eq_fault.1 h with h | ⟨_, _, h⟩
    · obtain ⟨ha, rfl⟩ := memRead_fault_iff.1 h
      exact ⟨s, _, _, ⟨rfl, rfl, rfl, rfl, rfl, rfl, rfl⟩, ha, rfl⟩
    · cases h
  have pushed : ∀ {v : Word}, push v s = .fault f → ∃ u a r, Quiet s u ∧ ¬ accessible s a ∧ f = accessFault u a r := by
    intro v h
    obtain ⟨ha, rfl⟩ := memWrite_fault_iff.1 h
    exact ⟨setSp (s.sp - 1) s, _, _, ⟨rfl, rfl, rfl, rfl, rfl, rfl, rfl⟩, ha, rfl⟩
  have popped : ∀ {u : State}, Quiet s u → pop u = .fault f →
      ∃ u a r, Quiet s u ∧ ¬ accessible s a ∧ f = accessFault u a r := by
    intro u hu h
    obtain ⟨ha, rfl⟩ := memRead_fault_iff.1 (pop_eq_fault h)
    exact ⟨u, _, _, hu, (accessible_congr hu.mode hu.cfg _).not.1 ha, rfl⟩
  have quiet : Quiet s s := ⟨rfl, rfl, rfl, rfl, rfl, rfl, rfl⟩
  have next : ∀ {u : State} {q : Word × State}, Quiet s u → pop u = .next q → Quiet s q.2 := by
    intro u q hu h
    obtain ⟨-, rfl⟩ := pop_eq_next h
    exact hu.trans ⟨rfl, rfl, rfl, rfl, rfl, rfl, rfl⟩
  cases i
  case loadAddr a => exact load h
  case loadIdxX a => exact load h
  case loadIdxY a => exact load h
  case loadSpX => exact load h
  case loadInd a =>
    rcases andThen_eq_fault.1 h with h | ⟨r, hr, h⟩
    · obtain ⟨ha, rfl⟩ := memRead_fault_iff.1 h
      exact ⟨s, _, _, quiet, ha, rfl⟩
    · obtain ⟨-, rfl⟩ := memRead_eq_next hr
      rcases andThen_eq_fault.1 h with h | ⟨_, _, h⟩
      · obtain ⟨ha, rfl⟩ := memRead_fault_iff.1 h
        exact ⟨request (.read a) s, _, _, ⟨rfl, rfl, rfl, rfl, rfl, rfl, rfl⟩, ha, rfl⟩
      · cases h
  case store a =>
    rcases andThen_eq_fault.1 h with h | ⟨_, _, h⟩
    · obtain ⟨ha, rfl⟩ := memWrite_fault_iff.1 h
      exact ⟨s, _, _, quiet, ha, rfl⟩
    · cases h
  case call a =>
    rcases andThen_eq_fault.1 h with h | ⟨_, _, h⟩
    · exact pushed h
    · cases h
  case push =>
    rcases andThen_eq_fault.1 h with h | ⟨_, _, h⟩
    · exact pushed h
    · cases h
  case ret =>
    rcases andThen_eq_fault.1 h with h | ⟨_, _, h⟩
    · exact popped quiet h
    · cases h
  case pop =>
    rcases andThen_eq_fault.1 h with h | ⟨_, _, h⟩
    · exact popped quiet h
    · cases h
  case int => rw [show exec .int s = _ from interruptEntry_of_wf .trap hw] at h; cases h
  case iret =>
    rcases andThen_eq_fault.1 h with h | ⟨r1, h1, h⟩
    · exact popped quiet h
    have q1 : Quiet s (setY r1.1 r1.2) := (next quiet h1).trans ⟨rfl, rfl, rfl, rfl, rfl, rfl, rfl⟩
    rcases andThen_eq_fault.1 h with h | ⟨r2, h2, h⟩
    · exact popped q1 h
    have q2 : Quiet s (setX r2.1 r2.2) := (next q1 h2).trans ⟨rfl, rfl, rfl, rfl, rfl, rfl, rfl⟩
    rcases andThen_eq_fault.1 h with h | ⟨r3, h3, h⟩
    · exact popped q2 h
    have q3 : Quiet s (setAc r3.1 r3.2) := (next q2 h3).trans ⟨rfl, rfl, rfl, rfl, rfl, rfl, rfl⟩
    rcases andThen_eq_fault.1 h with h | ⟨r4, h4, h⟩
    · exact popped q3 h
    have q4 : Quiet s (setIr r4.1 r4.2) := (next q3 h4).trans ⟨rfl, rfl, rfl, rfl, rfl, rfl, rfl⟩
    rcases andThen_eq_fault.1 h with h | ⟨r5, h5, h⟩
    · exact popped q4 h
    rcases andThen_eq_fault.1 h with h | ⟨r6, h6, h⟩
    · exact popped (next q4 h5) h
    · cases h
  all_goals cases h

theorem andThen_ne_refused {α β : Type} {o : Out α} {k : α → Out β} (h : ∀ r, o ≠ .refused r)
    (hk : ∀ a r, k a ≠ .refused r) : ∀ r, andThen o k ≠ .refused r := by
  cases o with
  | next a => exact hk a
  | fault f => exact fun r hr => by cases hr
  | refused q => exact absurd rfl (h q)

theorem memRead_ne_refused (a : Word) (s : State) : ∀ r, memRead a s ≠ .refused r := by
  intro r hr
  unfold memRead raise at hr
  split at hr
  · cases hr
  · split at hr <;> cases hr

theorem memWrite_ne_refused (a v : Word) (s : State) : ∀ r, memWrite a v s ≠ .refused r := by
  intro r hr
  unfold memWrite raise at hr
  split at hr
  · cases hr
  · split at hr <;> cases hr

theorem pop_ne_refused (s : State) : ∀ r, pop s ≠ .refused r :=
  andThen_ne_refused (memRead_ne_refused _ _) fun _ _ hr => by cases hr

end Sys2Proof.Machine
end

