-- ==== Sys2Proof/Laws/Cycle.lean ====
section
/-! SUPPORT. The fetch and the step as equations, for proofs that go forward from a state (spec R122 to R130). -/

namespace Sys2Proof.Machine

/-- The timer phase that does not fire (R122). -/
theorem timerTick_eq (s : State) :
    timerTick s = { s with timer := if s.ie = true then s.timer + 1 else s.timer } := by
  unfold timerTick; split <;> rfl


/-- The timer phase does not change what may be accessed. -/
theorem accessible_timerTick {s : State} {a : Word} : accessible (timerTick s) a ↔ accessible s a :=
  accessible_congr (timerTick_mode s) (timerTick_cfg s) a

/-- A running machine whose timer is due takes the interrupt (R122). -/
theorem step_due {s : State} (h : s.run = .running) (hd : timerDue s) : step s = interruptEntry .timer s := by
  unfold step cycle; rw [h]; simp only; rw [if_pos hd]

/-- A running machine whose timer is not due executes an instruction (R130). -/
theorem step_running {s : State} (h : s.run = .running) (hd : ¬ timerDue s) :
    step s = andThen (fetch (timerTick s)) fun r => exec r.1 r.2 := by
  unfold step cycle; rw [h]; simp only; rw [if_neg hd]

/-- A stopped machine has no step (R129). -/
theorem step_stopped {s : State} (h : s.run ≠ .running) : step s = .fault (.notRunning s) := by
  unfold step cycle
  cases hr : s.run <;> simp_all

theorem fetch_fault {s : State} (ha : ¬ accessible s s.pc) :
    fetch s = .fault (accessFault s s.pc (.read s.pc)) := by
  unfold fetch; rw [memRead_of_not_accessible ha]; rfl

theorem fetch_illegal {s : State} (ha : accessible s s.pc) (hd : decodeOpcode (s.mem.read s.pc.toNat) = none) :
    fetch s = raise .illegalOpcode (s.mem.read s.pc.toNat) (opcodeFetched s) := by
  unfold fetch; rw [memRead_of_accessible ha]; simp only [andThen_next, hd]; rfl

theorem fetch_zero {s : State} {i : Instr} (ha : accessible s s.pc)
    (hd : decodeOpcode (s.mem.read s.pc.toNat) = some (.zero i)) : fetch s = .next (i, opcodeFetched s) := by
  unfold fetch; rw [memRead_of_accessible ha]; simp only [andThen_next, hd]; rfl

theorem fetch_one {s : State} {mk : Word → Instr} (ha : accessible s s.pc)
    (hd : decodeOpcode (s.mem.read s.pc.toNat) = some (.one mk)) (hb : accessible s (s.pc + 1)) :
    fetch s = .next (mk (s.mem.read (s.pc + 1).toNat), operandFetched s) := by
  unfold fetch; rw [memRead_of_accessible ha]; simp only [andThen_next, hd]
  rw [memRead_of_accessible (by exact hb)]; rfl

theorem fetch_one_fault {s : State} {mk : Word → Instr} (ha : accessible s s.pc)
    (hd : decodeOpcode (s.mem.read s.pc.toNat) = some (.one mk)) (hb : ¬ accessible s (s.pc + 1)) :
    fetch s = .fault (accessFault (opcodeFetched s) (s.pc + 1) (.read (s.pc + 1))) := by
  unfold fetch; rw [memRead_of_accessible ha]; simp only [andThen_next, hd]
  rw [memRead_of_not_accessible (by exact hb)]; rfl

/-- `i` is the instruction at `PC` of `s`, its cells may be read, and `u` is the state its execute phase begins in. -/
def Fetched (s : State) (i : Instr) (u : State) : Prop :=
  accessible s s.pc ∧ opcodeOf i = s.mem.read s.pc.toNat ∧
  ((operandOf i = none ∧ u = opcodeFetched (timerTick s)) ∨
   (accessible s (s.pc + 1) ∧ operandOf i = some (s.mem.read (s.pc + 1).toNat) ∧ u = operandFetched (timerTick s)))

theorem fetched_of_fetch {s : State} {r : Instr × State} (h : fetch (timerTick s) = .next r) : Fetched s r.1 r.2 := by
  obtain ⟨ha, h⟩ := fetch_eq_next h
  rw [timerTick_pc] at ha
  refine ⟨accessible_timerTick.1 ha, ?_⟩
  rcases h with ⟨hd, hr⟩ | ⟨mk, hd, hb, rfl⟩
  · rw [timerTick_pc, timerTick_mem] at hd
    exact ⟨(decodeOpcode_zero hd).1, .inl ⟨(decodeOpcode_zero hd).2, hr⟩⟩
  · rw [timerTick_pc, timerTick_mem] at hd
    rw [timerTick_pc] at hb
    simp only [timerTick_pc, timerTick_mem]
    exact ⟨(decodeOpcode_one hd _).1, .inr ⟨accessible_timerTick.1 hb, (decodeOpcode_one hd _).2, trivial⟩⟩

/-- All that a step that answers can have done: a timer entry, or the instruction at `PC` executed. -/
theorem step_next_cases {s t : State} (h : step s = .next t) :
    s.run = .running ∧
    (timerDue s ∧ t = entered .timer s ∨
     ¬ timerDue s ∧ ∃ i u, Fetched s i u ∧ (∀ a ∈ accesses i u, accessible u a) ∧ t = executed i u) := by
  obtain ⟨hr, h⟩ := step_eq_next h
  refine ⟨hr, ?_⟩
  rcases h with ⟨hd, h⟩ | ⟨hd, r, hf, h⟩
  · exact .inl ⟨hd, interruptEntry_eq_next h⟩
  · exact .inr ⟨hd, r.1, r.2, fetched_of_fetch hf, exec_eq_next h⟩

/-- The fields the fetch leaves as they were, and those it sets. -/
theorem Fetched.same {s u : State} {i : Instr} (h : Fetched s i u) :
    u.pc = s.pc ∧ u.sp = s.sp ∧ u.ac = s.ac ∧ u.x = s.x ∧ u.y = s.y ∧ u.mode = s.mode ∧ u.ie = s.ie ∧
    u.handler = s.handler ∧ u.run = s.run ∧ u.mem = s.mem ∧ u.console = s.console ∧ u.diagnostic = s.diagnostic ∧
    u.drawCount = s.drawCount ∧ u.cfg = s.cfg ∧ u.ir = s.mem.read s.pc.toNat ∧
    u.timer = if s.ie then s.timer + 1 else s.timer := by
  obtain ⟨-, -, ⟨-, rfl⟩ | ⟨-, -, rfl⟩⟩ := h <;> simp [operandFetched, opcodeFetched]

/-- All the ways a step of a machine that meets R9 ends the run: an access that is not allowed, or a cell that is no
opcode. -/
theorem step_fatal_cases {s final : State} {kind : FaultKind} {info : Word} (hw : s.cfg.wf)
    (h : step s = .fault (.fatal kind info final)) :
    s.run = .running ∧ ¬ timerDue s ∧
    ((∃ u a r, Quiet s u ∧ ¬ accessible s a ∧ .fatal kind info final = accessFault u a r) ∨
     (∃ u, Quiet s u ∧ accessible s s.pc ∧ decodeOpcode (s.mem.read s.pc.toNat) = none ∧ kind = .illegalOpcode ∧
       info = s.mem.read s.pc.toNat ∧ final = setRun (.faulted kind info) u)) := by
  rcases step_eq_fault h with ⟨_, h⟩ | ⟨hr, hd, h⟩ | ⟨hr, hd, h⟩
  · cases h
  · rw [interruptEntry_of_wf _ hw] at h; cases h
  refine ⟨hr, hd, ?_⟩
  have q0 : Quiet s (timerTick s) := by constructor <;> simp
  have q1 : Quiet s (opcodeFetched (timerTick s)) := by constructor <;> simp [opcodeFetched]
  rcases h with h | ⟨r, h, h2⟩
  · by_cases ha : accessible s s.pc
    · have ha' : accessible (timerTick s) (timerTick s).pc := by rw [timerTick_pc]; exact accessible_timerTick.2 ha
      cases hdec : decodeOpcode (s.mem.read s.pc.toNat) with
      | none =>
        rw [fetch_illegal ha' (by simpa using hdec)] at h
        cases h
        exact .inr ⟨_, q1, ha, rfl, rfl, by simp, by simp⟩
      | some sh =>
        cases sh with
        | zero i => rw [fetch_zero ha' (by simpa using hdec)] at h; cases h
        | one mk =>
          by_cases hb : accessible s (s.pc + 1)
          · rw [fetch_one ha' (by simpa using hdec) (by rw [timerTick_pc]; exact accessible_timerTick.2 hb)] at h
            cases h
          · rw [fetch_one_fault ha' (by simpa using hdec)
              (by rw [timerTick_pc]; exact accessible_timerTick.not.2 hb)] at h
            exact .inl ⟨_, _, _, q1, by rw [timerTick_pc]; exact hb, (Host.Outcome.fault.inj h).symm⟩
    · rw [fetch_fault (by rw [timerTick_pc]; exact accessible_timerTick.not.2 ha)] at h
      exact .inl ⟨_, _, _, q0, by rw [timerTick_pc]; exact ha, (Host.Outcome.fault.inj h).symm⟩
  · obtain ⟨-, -, -, -, -, e6, e7, e8, -, e10, e11, e12, -, e14, -, -⟩ := (fetched_of_fetch h).same
    obtain ⟨u, a, q, hq, hn, hf⟩ := exec_eq_fault (by rw [e14]; exact hw) h2
    exact .inl ⟨u, a, q, Quiet.trans ⟨e10, e6, e7, e8, e11, e12, e14⟩ hq, (accessible_congr e6 e14 _).not.1 hn, hf⟩

end Sys2Proof.Machine
end

