-- ==== Sys2Proof/Laws/Isolation.lean ====
section
/-! SUPPORT. Two machines that differ in system space only: each shared operation, in User mode where it reads, does
the same in both (spec R73). One lemma per operation; the meanings are chains of these. -/

namespace Sys2Proof.Machine

/-- `t` is `s` with other contents in system space. -/
def Below (s t : State) : Prop :=
  ∃ m, t = setMem m s ∧ ∀ a : Nat, (a : Int) < s.cfg.userLimit.toInt → m.read a = s.mem.read a

/-- The same fault, in states that differ in system space only. -/
def FaultBelow : Fault → Fault → Prop
  | .fatal k i s, .fatal l j t => k = l ∧ i = j ∧ Below s t
  | .notRunning s, .notRunning t => Below s t
  | .fatal _ _ _, .notRunning _ | .notRunning _, .fatal _ _ _ => False

/-- Both answer, with related results, or both end the run alike. -/
def Alike {α : Type} (R : α → α → Prop) (o p : Out α) : Prop :=
  (∃ a b, o = .next a ∧ p = .next b ∧ R a b) ∨ (∃ f g, o = .fault f ∧ p = .fault g ∧ FaultBelow f g)

/-- What a read returns in two machines alike: one value, and states alike and still in User mode. -/
def ReadAlike {α : Type} (r q : α × State) : Prop := r.1 = q.1 ∧ Below r.2 q.2 ∧ r.2.mode = .user

theorem Alike.andThen {α β : Type} {R : α → α → Prop} {S : β → β → Prop} {o p : Out α} {k l : α → Out β}
    (h : Alike R o p) (hk : ∀ a b, R a b → Alike S (k a) (l b)) : Alike S (andThen o k) (andThen p l) := by
  rcases h with ⟨a, b, rfl, rfl, h⟩ | ⟨f, g, rfl, rfl, h⟩
  · exact hk a b h
  · exact .inr ⟨f, g, rfl, rfl, h⟩

/-- An access that is refused is refused alike. -/
theorem accessFault_alike {s t : State} (h : Below s t) (a : Word) (r : BusRequest) :
    FaultBelow (accessFault s a r) (accessFault t a r) := by
  obtain ⟨m, rfl, h⟩ := h
  unfold accessFault
  by_cases hd : denied s a
  · rw [if_pos hd, if_pos (by exact hd)]; exact ⟨rfl, rfl, m, rfl, h⟩
  · rw [if_neg hd, if_neg (by exact hd)]; exact ⟨rfl, rfl, m, rfl, h⟩

theorem memWrite_alike {s t : State} (h : Below s t) (a v : Word) : Alike Below (memWrite a v s) (memWrite a v t) := by
  obtain ⟨m, rfl, h⟩ := h
  by_cases ha : accessible s a
  · rw [memWrite_of_accessible ha, memWrite_of_accessible (s := setMem m s) ha]
    refine .inl ⟨_, _, rfl, rfl, m.write a.toNat v, rfl, fun b hb => ?_⟩
    show _ = (s.mem.write a.toNat v).read b
    rw [Memory.read_write, Memory.read_write]
    split
    · rfl
    · exact h b hb
  · rw [memWrite_of_not_accessible ha, memWrite_of_not_accessible (s := setMem m s) ha]
    exact .inr ⟨_, _, rfl, rfl, accessFault_alike ⟨m, rfl, h⟩ _ _⟩

theorem memRead_alike {s t : State} (hm : s.mode = .user) (h : Below s t) (a : Word) :
    Alike ReadAlike (memRead a s) (memRead a t) := by
  obtain ⟨m, rfl, h⟩ := h
  by_cases ha : accessible s a
  · rw [memRead_of_accessible ha, memRead_of_accessible (s := setMem m s) ha]
    refine .inl ⟨_, _, rfl, rfl, (h _ ?_).symm, ⟨m, rfl, h⟩, hm⟩
    have := toNat_of_inBounds ha.2
    by_contra hc
    exact ha.1 ⟨hm, by omega⟩
  · rw [memRead_of_not_accessible ha, memRead_of_not_accessible (s := setMem m s) ha]
    exact .inr ⟨_, _, rfl, rfl, accessFault_alike ⟨m, rfl, h⟩ _ _⟩

theorem push_alike {s t : State} (h : Below s t) (v : Word) : Alike Below (push v s) (push v t) := by
  obtain ⟨m, rfl, h⟩ := h
  exact memWrite_alike (s := setSp (s.sp - 1) s) ⟨m, rfl, h⟩ _ _

theorem pop_alike {s t : State} (hm : s.mode = .user) (h : Below s t) : Alike ReadAlike (pop s) (pop t) := by
  unfold pop
  rw [show t.sp = s.sp by obtain ⟨m, rfl, -⟩ := h; rfl]
  refine (memRead_alike hm h s.sp).andThen ?_
  rintro ⟨v, s'⟩ ⟨_, _⟩ ⟨rfl, ⟨m, rfl, h⟩, hm⟩
  exact .inl ⟨_, _, rfl, rfl, rfl, ⟨m, rfl, h⟩, hm⟩

/-- An entry reads no memory, so it is alike in any mode. -/
theorem interruptEntry_alike {s t : State} (kind : IntKind) (h : Below s t) :
    Alike Below (interruptEntry kind s) (interruptEntry kind t) := by
  unfold interruptEntry
  obtain ⟨m, rfl, h⟩ := h
  refine (push_alike (s := setSp s.cfg.memorySize (setMode .kernel s)) ⟨m, rfl, h⟩ _).andThen ?_
  rintro s1 _ ⟨m, rfl, h⟩
  refine (push_alike ⟨m, rfl, h⟩ _).andThen ?_
  rintro s2 _ ⟨m, rfl, h⟩
  refine (push_alike (s := setIe false s2) ⟨m, rfl, h⟩ _).andThen ?_
  rintro s3 _ ⟨m, rfl, h⟩
  refine (push_alike ⟨m, rfl, h⟩ _).andThen ?_
  rintro s4 _ ⟨m, rfl, h⟩
  refine (push_alike ⟨m, rfl, h⟩ _).andThen ?_
  rintro s5 _ ⟨m, rfl, h⟩
  refine (push_alike ⟨m, rfl, h⟩ _).andThen ?_
  rintro s6 _ ⟨m, rfl, h⟩
  exact .inl ⟨_, _, rfl, rfl, m, rfl, h⟩

theorem interruptReturn_alike {s t : State} (hm : s.mode = .user) (h : Below s t) :
    Alike Below (interruptReturn s) (interruptReturn t) := by
  unfold interruptReturn
  refine (pop_alike hm h).andThen ?_
  rintro ⟨v1, s1⟩ ⟨_, _⟩ ⟨rfl, ⟨m, rfl, h⟩, hm⟩
  refine (pop_alike (s := setY v1 s1) hm ⟨m, rfl, h⟩).andThen ?_
  rintro ⟨v2, s2⟩ ⟨_, _⟩ ⟨rfl, ⟨m, rfl, h⟩, hm⟩
  refine (pop_alike (s := setX v2 s2) hm ⟨m, rfl, h⟩).andThen ?_
  rintro ⟨v3, s3⟩ ⟨_, _⟩ ⟨rfl, ⟨m, rfl, h⟩, hm⟩
  refine (pop_alike (s := setAc v3 s3) hm ⟨m, rfl, h⟩).andThen ?_
  rintro ⟨v4, s4⟩ ⟨_, _⟩ ⟨rfl, ⟨m, rfl, h⟩, hm⟩
  refine (pop_alike (s := setIr v4 s4) hm ⟨m, rfl, h⟩).andThen ?_
  rintro ⟨v5, s5⟩ ⟨_, _⟩ ⟨rfl, ⟨m, rfl, h⟩, hm⟩
  refine (pop_alike (s := s5) hm ⟨m, rfl, h⟩).andThen ?_
  rintro ⟨v6, s6⟩ ⟨_, _⟩ ⟨rfl, ⟨m, rfl, h⟩, -⟩
  exact .inl ⟨_, _, rfl, rfl, m, rfl, h⟩

theorem loadAc_alike {s t : State} (hm : s.mode = .user) (h : Below s t) (a n : Word) :
    Alike Below (loadAc a n s) (loadAc a n t) := by
  refine (memRead_alike hm h _).andThen ?_
  rintro ⟨v, s'⟩ ⟨_, _⟩ ⟨rfl, ⟨m, rfl, h⟩, -⟩
  exact .inl ⟨_, _, rfl, rfl, m, rfl, h⟩

theorem fetch_alike {s t : State} (hm : s.mode = .user) (h : Below s t) : Alike ReadAlike (fetch s) (fetch t) := by
  unfold fetch
  rw [show t.pc = s.pc by obtain ⟨m, rfl, -⟩ := h; rfl]
  refine (memRead_alike hm h _).andThen ?_
  rintro ⟨v, s'⟩ ⟨_, _⟩ ⟨rfl, ⟨m, rfl, h⟩, hm⟩
  simp only
  split
  · exact .inr ⟨_, _, rfl, rfl, rfl, rfl, m, rfl, h⟩
  · exact .inl ⟨_, _, rfl, rfl, rfl, ⟨m, rfl, h⟩, hm⟩
  · refine (memRead_alike (s := setIr v s') hm ⟨m, rfl, h⟩ _).andThen ?_
    rintro ⟨w, s''⟩ ⟨_, _⟩ ⟨rfl, ⟨m, rfl, h⟩, hm⟩
    exact .inl ⟨_, _, rfl, rfl, rfl, ⟨m, rfl, h⟩, hm⟩

end Sys2Proof.Machine
end

