-- ==== Sys2Proof/Laws/Service.lean ====
section
/-! SUPPORT. The Memory Service serving requests and lists of them (spec R67 to R70), and the wire (R71, R72). -/

namespace Sys2Proof.Machine

@[simp] theorem service_cells (s : State) : s.service.cells = s.mem := rfl
@[simp] theorem service_accepting (s : State) : s.service.accepting = (s.run == .running) := rfl

/-- The service of a running machine. -/
theorem service_running {s : State} (h : s.run = .running) : s.service = ⟨s.mem, true⟩ := by
  simp only [State.service, h]; rfl

/-- An ended service accepts nothing (R69). -/
theorem serve_ended (size : Word) (r : BusRequest) (m : Memory) : serve size r ⟨m, false⟩ = .error .ended := rfl

/-- All that a served request can have done: the service accepted it, and only `Terminate` ends it. -/
theorem serve_eq_ok {size : Word} {r : BusRequest} {v w : Service} {reply : Option Word}
    (h : serve size r v = .ok (w, reply)) :
    v.accepting = true ∧
    (r = .terminate ∧ w = { v with accepting := false } ∧ reply = none ∨ r ≠ .terminate ∧ w.accepting = true) := by
  obtain ⟨m, acc⟩ := v
  cases acc with
  | false => cases h
  | true =>
    refine ⟨rfl, ?_⟩
    cases r with
    | terminate => cases h; exact .inl ⟨rfl, rfl, rfl⟩
    | read a => simp only [serve] at h; split at h <;> cases h; exact .inr ⟨nofun, rfl⟩
    | write a x => simp only [serve] at h; split at h <;> cases h; exact .inr ⟨nofun, rfl⟩

/-- Serving two lists one after the other. -/
theorem serveAll_append (size : Word) (a b : List BusRequest) (v : Service) : serveAll size (a ++ b) v =
    match serveAll size a v with
    | .error e => .error e
    | .ok (v1, r1) =>
      match serveAll size b v1 with
      | .error e => .error e
      | .ok (v2, r2) => .ok (v2, r1 ++ r2) := by
  induction a generalizing v with
  | nil => simp only [List.nil_append, serveAll]; cases serveAll size b v <;> rfl
  | cons r rs ih =>
    simp only [List.cons_append, serveAll]
    cases serve size r v with
    | error e => rfl
    | ok p =>
      simp only [ih]
      cases serveAll size rs p.1 with
      | error e => rfl
      | ok q => simp only; cases serveAll size b q.1 <;> simp

/-- Reads change nothing and are answered with the cells (R68). -/
theorem serveAll_reads {size : Word} {l : List Word} (m : Memory) (h : ∀ a ∈ l, 0 ≤ a.toInt ∧ a.toInt < size.toInt) :
    serveAll size (l.map .read) ⟨m, true⟩ = .ok (⟨m, true⟩, l.map fun a => m.read a.toNat) := by
  induction l with
  | nil => rfl
  | cons a l ih =>
    simp only [List.map_cons, serveAll, serve, if_pos (h a (by simp))]
    rw [ih fun b hb => h b (by simp [hb])]
    rfl

/-- A write in the array is done and has no reply (R67). -/
theorem serveAll_write {size a x : Word} {rs : List BusRequest} (m : Memory)
    (h : 0 ≤ a.toInt ∧ a.toInt < size.toInt) :
    serveAll size (.write a x :: rs) ⟨m, true⟩ = serveAll size rs ⟨m.write a.toNat x, true⟩ := by
  simp only [serveAll, serve, if_pos h]
  generalize serveAll size rs _ = o
  cases o <;> rfl

/-- The six writes of an interrupt entry, served. -/
theorem serveAll_frame {s : State} (h : s.cfg.wf) :
    serveAll s.cfg.memorySize (frameRequests s) ⟨s.mem, true⟩ = .ok (⟨frameWrites s, true⟩, []) := by
  have b : ∀ k, 1 ≤ k ∧ k ≤ 6 → 0 ≤ (s.cfg.memorySize - BitVec.ofNat 32 k).toInt ∧
      (s.cfg.memorySize - BitVec.ofNat 32 k).toInt < s.cfg.memorySize.toInt := by
    intro k hk
    rw [frame_inBounds h hk]
    have := h.1
    omega
  exact (serveAll_write _ (b 1 (by decide))).trans ((serveAll_write _ (b 2 (by decide))).trans
    ((serveAll_write _ (b 3 (by decide))).trans ((serveAll_write _ (b 4 (by decide))).trans
    ((serveAll_write _ (b 5 (by decide))).trans (serveAll_write _ (b 6 (by decide)))))))

/-- The sentinels are negative and distinct, whatever they are (R72). -/
theorem sentinels : Config.writeSentinel.toInt < 0 ∧ Config.terminateSentinel.toInt < 0 ∧
    Config.terminateSentinel ≠ Config.writeSentinel := by
  have h := Config.writeSentinelIndex.isLt
  have h' := Config.terminateSentinelIndex.isLt
  have ew : Config.writeSentinel.toInt = -1 - (Config.writeSentinelIndex.val : Int) := by
    rw [Config.writeSentinel, BitVec.toInt_ofInt, Int.bmod_eq_of_le] <;> omega
  have et : Config.terminateSentinel.toInt =
      if Config.terminateSentinelIndex.val < Config.writeSentinelIndex.val then
        -1 - (Config.terminateSentinelIndex.val : Int)
      else -2 - (Config.terminateSentinelIndex.val : Int) := by
    rw [Config.terminateSentinel, BitVec.toInt_ofInt, Int.bmod_eq_of_le] <;> split <;> omega
  refine ⟨by omega, by rw [et]; split <;> omega, fun hh => ?_⟩
  have := congrArg BitVec.toInt hh
  rw [et, ew] at this
  split at this <;> omega

theorem requestKind_writeSentinel : requestKind Config.writeSentinel = some .write := by simp [requestKind]

theorem requestKind_terminateSentinel : requestKind Config.terminateSentinel = some .terminate := by
  simp [requestKind, sentinels.2.2]

/-- A bare address is no sentinel (R72). -/
theorem requestKind_of_nonneg {a : Word} (h : 0 ≤ a.toInt) : requestKind a = some .read := by
  have hw : a ≠ Config.writeSentinel := fun e => by have := sentinels.1; rw [← e] at this; omega
  have ht : a ≠ Config.terminateSentinel := fun e => by have := sentinels.2.1; rw [← e] at this; omega
  simp [requestKind, hw, ht, h]

end Sys2Proof.Machine
end

