-- ==== Sys2Proof/Tests/Slice0.lean ====
section
/-! SUPPORT. Tests: ill-formed configurations are refused; every constructor's cells, written out from spec R106, decode
to it; one-step vectors of spec 95_test_vectors.md (`V<n>` in a comment names the row a test takes its numbers from);
and a witness for the hypotheses of each obligation. No expected value here was made by the model. -/

namespace Sys2Proof.Tests

open Sys2Proof Sys2Proof.Machine Sys2Proof.Claims

/-! ### Helpers -/

/-- A memory of the cells listed, as signed numbers. -/
def cells (l : List (Nat × Int)) : Memory := l.foldl (fun m c => m.write c.1 (BitVec.ofInt 32 c.2)) []

/-- The reset state with `PC` and some cells (the vectors' User-mode rows). -/
def user (pc : Int) (l : List (Nat × Int)) : State :=
  { State.reset with pc := BitVec.ofInt 32 pc, mem := cells l }

/-- The state a timer handler runs in (the vectors' Kernel-mode rows). -/
def inHandler (pc : Int) (l : List (Nat × Int)) : State :=
  { user pc l with sp := 1994, mode := .kernel, ie := false, handler := some .timer }

/-- The reset state with another timer period (log entry 3). -/
def period (k : Int) (s : State) : State := { s with cfg := { s.cfg with timeConstraint := BitVec.ofInt 32 k } }

/-- `PC, SP, IR, AC, X, Y, timer` as signed numbers, where a next state is answered. -/
def regs : Out State → Option (List Int)
  | .next t => some [t.pc.toInt, t.sp.toInt, t.ir.toInt, t.ac.toInt, t.x.toInt, t.y.toInt, t.timer.toInt]
  | _ => none

/-- The bus trace, where a next state is answered. -/
def bus : Out State → Option (List BusRequest)
  | .next t => some t.bus
  | _ => none

/-- The cell at an address, where a next state is answered. -/
def cell (a : Nat) : Out State → Option Word
  | .next t => some (t.mem.read a)
  | _ => none

/-- Kind, `info` and bus trace, where the run ends in a fatal condition. -/
def fatal : Out State → Option (FaultKind × Int × List BusRequest)
  | .fault (.fatal kind info final) => some (kind, info.toInt, final.bus)
  | _ => none

/-- Mode, `IE` and `handler`, where a next state is answered. -/
def control : Out State → Option (Mode × Bool × Option IntKind)
  | .next t => some (t.mode, t.ie, t.handler)
  | _ => none

/-- Does an operation answer a next state? -/
def completes (o : Out State) : Bool := (regs o).isSome

/-! ### WellFormed: each constraint of R9, broken alone, is refused

`Instr.wf` refuses nothing: every term of `Instr` is well-formed (R105, R108), so there is no ill-formed one to show. -/

theorem test_wf_reference : Config.reference.wf := by decide
theorem test_wf_memory_of_five_cells :
    ¬ Config.wf { Config.reference with memorySize := 5, userLimit := 1, timerVector := 2, trapVector := 3 } := by decide
theorem test_wf_six_cells :
    Config.wf { Config.reference with memorySize := 6, userLimit := 5, timerVector := 5, trapVector := 5 } := by decide
theorem test_wf_negative_limit : ¬ Config.wf { Config.reference with userLimit := -1 } := by decide
theorem test_wf_limit_past_memory : ¬ Config.wf { Config.reference with userLimit := 2001 } := by decide
theorem test_wf_timer_vector_in_user_space : ¬ Config.wf { Config.reference with timerVector := 999 } := by decide
theorem test_wf_timer_vector_past_memory : ¬ Config.wf { Config.reference with timerVector := 2000 } := by decide
theorem test_wf_trap_vector_in_user_space : ¬ Config.wf { Config.reference with trapVector := 999 } := by decide
theorem test_wf_trap_vector_past_memory : ¬ Config.wf { Config.reference with trapVector := 2000 } := by decide
theorem test_wf_negative_reset_sp : ¬ Config.wf { Config.reference with resetSp := -1 } := by decide
theorem test_wf_negative_reset_pc : ¬ Config.wf { Config.reference with resetPc := -1 } := by decide
theorem test_wf_short_image : ¬ imageWf Config.reference [1, 5, 9, 1, 50] := by decide

/-! ### Decoding: every constructor's cells, written out from R106 -/

theorem test_decode_loads_and_store :
    decode [1, -7] = .ok (.loadValue (-7), []) ∧ decode [2, 500] = .ok (.loadAddr 500, []) ∧
    decode [3, 500] = .ok (.loadInd 500, []) ∧ decode [4, 500] = .ok (.loadIdxX 500, []) ∧
    decode [5, 500] = .ok (.loadIdxY 500, []) ∧ decode [6, 99] = .ok (.loadSpX, [99]) ∧
    decode [7, 1500] = .ok (.store 1500, []) := ⟨rfl, rfl, rfl, rfl, rfl, rfl, rfl⟩
theorem test_decode_input_output : decode [8] = .ok (.get, []) ∧ decode [9, 3] = .ok (.put 3, []) := ⟨rfl, rfl⟩
theorem test_decode_arithmetic :
    decode [10] = .ok (.addX, []) ∧ decode [11] = .ok (.addY, []) ∧ decode [12] = .ok (.subX, []) ∧
    decode [13] = .ok (.subY, []) ∧ decode [25] = .ok (.incX, []) ∧ decode [26] = .ok (.decX, []) :=
  ⟨rfl, rfl, rfl, rfl, rfl, rfl⟩
theorem test_decode_moves :
    decode [14] = .ok (.copyToX, []) ∧ decode [15] = .ok (.copyFromX, []) ∧ decode [16] = .ok (.copyToY, []) ∧
    decode [17] = .ok (.copyFromY, []) ∧ decode [18] = .ok (.copyToSp, []) ∧ decode [19] = .ok (.copyFromSp, []) :=
  ⟨rfl, rfl, rfl, rfl, rfl, rfl⟩
theorem test_decode_control :
    decode [20, 4] = .ok (.jump 4, []) ∧ decode [21, 30] = .ok (.jumpIfEqual 30, []) ∧
    decode [22, 2] = .ok (.jumpIfNotEqual 2, []) ∧ decode [23, 100] = .ok (.call 100, []) ∧
    decode [24, 100] = .ok (.ret, [100]) := ⟨rfl, rfl, rfl, rfl, rfl⟩
theorem test_decode_stack_and_system :
    decode [27] = .ok (.push, []) ∧ decode [28] = .ok (.pop, []) ∧ decode [29] = .ok (.int, []) ∧
    decode [30] = .ok (.iret, []) ∧ decode [50] = .ok (.halt, []) := ⟨rfl, rfl, rfl, rfl, rfl⟩
/-- R103, R107: the whole cell is compared; each end of each gap. -/
theorem test_decode_rejects :
    [0, -1, 31, 49, 51, 257, 2147483647].map (fun v : Word => decode [v, 5]) =
      [0, -1, 31, 49, 51, 257, 2147483647].map (fun v : Word => .error (.illegalOpcode v)) := rfl
theorem test_decode_incomplete : decode [] = .error .noOpcode ∧ decode [1] = .error (.missingOperand 1) := ⟨rfl, rfl⟩

/-! ### Loads and the store -/

/-- V1 -/
theorem test_loadValue : regs (step (user 0 [(0, 1), (1, -7)])) = some [2, 1000, 1, -7, 0, 0, 1] := by decide
/-- V3 -/
theorem test_loadAddr :
    regs (step (user 10 [(10, 2), (11, 500), (500, 42)])) = some [12, 1000, 2, 42, 0, 0, 1] ∧
    bus (step (user 10 [(10, 2), (11, 500), (500, 42)])) = some [.read 10, .read 11, .read 500] := by decide
/-- V5, V6: protection wins over bounds and sends no request; a negative address is sent. -/
theorem test_loadAddr_faults :
    fatal (step (user 0 [(0, 2), (1, 2000)])) = some (.protectionFault, 2000, [.read 0, .read 1]) ∧
    fatal (step (user 0 [(0, 2), (1, -1)])) = some (.boundsFault, -1, [.read 0, .read 1, .read (-1)]) := by decide
/-- V8 -/
theorem test_loadInd :
    regs (step (user 0 [(0, 3), (1, 500), (500, 600), (600, 9)])) = some [2, 1000, 3, 9, 0, 0, 1] := by decide
/-- V9 -/
theorem test_loadInd_second_read_protected :
    fatal (step (user 0 [(0, 3), (1, 500), (500, 1500)])) =
      some (.protectionFault, 1500, [.read 0, .read 1, .read 500]) := by decide
/-- V11 -/
theorem test_loadIdxX_negative_index :
    regs (step { user 0 [(0, 4), (1, 500), (498, 11)] with x := -2 }) = some [2, 1000, 4, 11, -2, 0, 1] := by decide
/-- V13: the sum wraps. -/
theorem test_loadIdxX_wraps :
    fatal (step { user 0 [(0, 4), (1, 2147483647)] with x := 1 }) =
      some (.boundsFault, -2147483648, [.read 0, .read 1, .read (-2147483648)]) := by decide
/-- V14 -/
theorem test_loadIdxY :
    regs (step { user 0 [(0, 5), (1, 500), (504, 88)] with y := 4 }) = some [2, 1000, 5, 88, 0, 4, 1] := by decide
/-- V15 -/
theorem test_loadSpX :
    regs (step { user 0 [(0, 6), (998, 5), (999, 21)] with sp := 998, x := 1 }) =
      some [1, 998, 6, 21, 1, 0, 1] := by decide
/-- V16 -/
theorem test_loadSpX_empty_stack :
    fatal (step (user 0 [(0, 6)])) = some (.protectionFault, 1000, [.read 0]) := by decide
/-- V19: the next opcode is overwritten. -/
theorem test_store :
    cell 2 (step { user 0 [(0, 7), (1, 2)] with ac := 50 }) = some 50 ∧
    bus (step { user 0 [(0, 7), (1, 2)] with ac := 50 }) = some [.read 0, .read 1, .write 2 50] := by decide
/-- V18, V21 -/
theorem test_store_faults :
    fatal (step { user 0 [(0, 7), (1, 1500)] with ac := 7 }) = some (.protectionFault, 1500, [.read 0, .read 1]) ∧
    fatal (step { user 0 [(0, 7), (1, -5)] with ac := 1 }) =
      some (.boundsFault, -5, [.read 0, .read 1, .write (-5) 1]) := by decide

/-! ### Input and output -/

/-- R150: whatever is drawn, `PC` and `IR` are as V22 has them. -/
theorem test_get : ∃ t, step (user 0 [(0, 8)]) = .next t ∧ t.pc = 1 ∧ t.ir = 8 ∧ t.bus = [.read 0] :=
  ⟨_, rfl, rfl, rfl, rfl⟩
/-- V25, V26 -/
theorem test_put :
    (∃ t, step { user 0 [(0, 9), (1, 1)] with ac := -12 } = .next t ∧ t.console = [.putInt (-12)] ∧ t.pc = 2) ∧
    ∃ t, step { user 0 [(0, 9), (1, 2)] with ac := 65 } = .next t ∧ t.console = [.putChar 65] ∧ t.pc = 2 :=
  ⟨⟨_, rfl, rfl, rfl⟩, _, rfl, rfl, rfl⟩
/-- V28 -/
theorem test_put_bad_port :
    ∃ t, step { user 0 [(0, 9), (1, 0)] with ac := 65 } = .next t ∧ t.console = [] ∧ t.diagnostic = [.badPort 0] ∧
      t.pc = 2 := ⟨_, rfl, rfl, rfl, rfl⟩
/-- R152: "the shortest decimal spelling", and "with a leading `-` when negative". -/
theorem test_render : renderConsole [.putInt 5, .putInt (-12)] = "5-12" := by decide

/-! ### Arithmetic and moves -/

/-- V31 -/
theorem test_addX_wraps :
    regs (step { user 0 [(0, 10)] with ac := 2147483647, x := 1 }) = some [1, 1000, 10, -2147483648, 1, 0, 1] := by
  decide
/-- V32 -/
theorem test_addY : regs (step { user 0 [(0, 11)] with ac := -4, y := 10 }) = some [1, 1000, 11, 6, 0, 10, 1] := by
  decide
/-- V34 -/
theorem test_subX : regs (step { user 0 [(0, 12)] with ac := 5, x := 7 }) = some [1, 1000, 12, -2, 7, 0, 1] := by decide
/-- V37: `0 - MIN = MIN`. -/
theorem test_subY_wraps :
    regs (step { user 0 [(0, 13)] with y := -2147483648 }) = some [1, 1000, 13, -2147483648, 0, -2147483648, 1] := by
  decide
/-- V38 -/
theorem test_copyToX : regs (step { user 0 [(0, 14)] with ac := 9, x := 1 }) = some [1, 1000, 14, 9, 9, 0, 1] := by
  decide
/-- V39 -/
theorem test_copyFromX : regs (step { user 0 [(0, 15)] with ac := 9, x := -1 }) = some [1, 1000, 15, -1, -1, 0, 1] := by
  decide
/-- V40 -/
theorem test_copyToY : regs (step { user 0 [(0, 16)] with ac := 9, y := 1 }) = some [1, 1000, 16, 9, 0, 9, 1] := by
  decide
/-- V41 -/
theorem test_copyFromY : regs (step { user 0 [(0, 17)] with ac := 9, y := 4 }) = some [1, 1000, 17, 4, 0, 4, 1] := by
  decide
/-- V43 -/
theorem test_copyToSp_unchecked : regs (step { user 0 [(0, 18)] with ac := -3 }) = some [1, -3, 18, -3, 0, 0, 1] := by
  decide
/-- V44 -/
theorem test_copyFromSp : regs (step { user 0 [(0, 19)] with ac := 9 }) = some [1, 1000, 19, 1000, 0, 0, 1] := by decide
/-- V46 -/
theorem test_incX_wraps :
    regs (step { user 0 [(0, 25)] with x := 2147483647 }) = some [1, 1000, 25, 0, -2147483648, 0, 1] := by decide
/-- V47 -/
theorem test_decX : regs (step (user 0 [(0, 26)])) = some [1, 1000, 26, 0, -1, 0, 1] := by decide

/-! ### Control transfer and the stack -/

/-- V51: a jump into system space is no fault of the jump. -/
theorem test_jump : regs (step (user 0 [(0, 20), (1, 1000)])) = some [1000, 1000, 20, 0, 0, 0, 1] := by decide
/-- V53, V54: the operand is read either way. -/
theorem test_jumpIfEqual :
    regs (step (user 6 [(6, 21), (7, 30)])) = some [30, 1000, 21, 0, 0, 0, 1] ∧
    regs (step { user 6 [(6, 21), (7, 30)] with ac := -1 }) = some [8, 1000, 21, -1, 0, 0, 1] ∧
    bus (step { user 6 [(6, 21), (7, 30)] with ac := -1 }) = some [.read 6, .read 7] := by decide
/-- V55, V56 -/
theorem test_jumpIfNotEqual :
    regs (step { user 6 [(6, 22), (7, 2)] with ac := 3 }) = some [2, 1000, 22, 3, 0, 0, 1] ∧
    regs (step (user 6 [(6, 22), (7, 2)])) = some [8, 1000, 22, 0, 0, 0, 1] := by decide
/-- V57 -/
theorem test_call :
    regs (step (user 4 [(4, 23), (5, 100)])) = some [100, 999, 23, 0, 0, 0, 1] ∧
    cell 999 (step (user 4 [(4, 23), (5, 100)])) = some 6 := by decide
/-- V58, V59 -/
theorem test_call_faults :
    fatal (step { user 4 [(4, 23), (5, 100)] with sp := 1001 }) = some (.protectionFault, 1000, [.read 4, .read 5]) ∧
    fatal (step { user 4 [(4, 23), (5, 100)] with sp := 0 }) =
      some (.boundsFault, -1, [.read 4, .read 5, .write (-1) 6]) := by decide
/-- V60 -/
theorem test_ret :
    regs (step { user 102 [(102, 24), (999, 6)] with sp := 999 }) = some [6, 1000, 24, 0, 0, 0, 1] := by decide
/-- V61 -/
theorem test_ret_empty_stack :
    fatal (step (user 102 [(102, 24)])) = some (.protectionFault, 1000, [.read 102]) := by decide
/-- V62, V65 -/
theorem test_push :
    cell 999 (step { user 0 [(0, 27)] with ac := 77 }) = some 77 ∧
    regs (step { inHandler 1000 [(1000, 27)] with ac := 8 }) = some [1001, 1993, 27, 8, 0, 0, 0] := by decide
/-- V63: the popped cell keeps its value. -/
theorem test_pop :
    regs (step { user 0 [(0, 28), (999, 77)] with sp := 999 }) = some [1, 1000, 28, 77, 0, 0, 1] ∧
    cell 999 (step { user 0 [(0, 28), (999, 77)] with sp := 999 }) = some 77 := by decide
/-- V64 -/
theorem test_pop_empty_stack : fatal (step (user 0 [(0, 28)])) = some (.protectionFault, 1000, [.read 0]) := by decide

/-! ### System instructions -/

/-- V67 -/
theorem test_int :
    regs (step { user 3 [(3, 29)] with ac := 5, x := 1, y := 2, timer := 4 }) = some [1500, 1994, 29, 5, 1, 2, 5] ∧
    control (step { user 3 [(3, 29)] with ac := 5, x := 1, y := 2, timer := 4 }) =
      some (.kernel, false, some .trap) ∧
    bus (step { user 3 [(3, 29)] with ac := 5, x := 1, y := 2, timer := 4 }) = some [.read 3, .write 1999 1000,
      .write 1998 3, .write 1997 29, .write 1996 5, .write 1995 1, .write 1994 2] := by decide
/-- V75: a trap inside a handler overwrites the frame. -/
theorem test_int_in_handler :
    cell 1999 (step { inHandler 1003 [(1003, 29)] with sp := 1993, ac := 1, x := 2, y := 3 }) = some 1993 ∧
    cell 1998 (step { inHandler 1003 [(1003, 29)] with sp := 1993, ac := 1, x := 2, y := 3 }) = some 1003 := by decide

/-- The frame of V68 and V69. -/
def frame (ir pc : Int) : List (Nat × Int) := [(1994, 2), (1995, 1), (1996, 5), (1997, ir), (1998, pc), (1999, 1000)]

/-- V68, V69: one more after a trap, and not after a timer interrupt. -/
theorem test_iret :
    regs (step { inHandler 1502 ((1502, 30) :: frame 29 3) with handler := some .trap, timer := 5 }) =
      some [4, 1000, 29, 5, 1, 2, 5] ∧
    regs (step (inHandler 1007 ((1007, 30) :: frame 25 7))) = some [7, 1000, 25, 5, 1, 2, 0] ∧
    control (step (inHandler 1007 ((1007, 30) :: frame 25 7))) = some (.user, true, none) := by decide
/-- V70, V72: in User mode; the third pop faults. -/
theorem test_iret_in_user_mode :
    regs (step { user 0 [(0, 30), (994, 6), (995, 5), (996, 4), (997, 3), (998, 20), (999, 900)] with sp := 994 }) =
      some [20, 900, 3, 4, 5, 6, 1] ∧
    fatal (step { user 0 [(0, 30), (998, 6), (999, 5)] with sp := 998 }) =
      some (.protectionFault, 1000, [.read 0, .read 998, .read 999]) := by decide
/-- V73 -/
theorem test_halt :
    ∃ t, step { user 4 [(4, 50)] with ac := 5 } = .next t ∧ t.run = .halted ∧ t.pc = 4 ∧ t.bus = [.read 4, .terminate] :=
  ⟨_, rfl, rfl, rfl, rfl⟩
/-- V76, V78, V79, V80 -/
theorem test_illegal_opcodes :
    [0, 31, 49, 51].map (fun v : Int => fatal (step (user 7 [(7, v)]))) =
      [0, 31, 49, 51].map (fun v : Int => some (.illegalOpcode, v, [.read 7])) := by decide

/-! ### Fetch and the timer phase -/

/-- V52, V82, V83 -/
theorem test_opcode_fetch_faults :
    fatal (step (user 1000 [])) = some (.protectionFault, 1000, []) ∧
    fatal (step (inHandler 2000 [])) = some (.boundsFault, 2000, [.read 2000]) ∧
    fatal (step (user (-1) [])) = some (.boundsFault, -1, [.read (-1)]) := by decide
/-- V29, V84 -/
theorem test_operand_fetch_faults :
    fatal (step (user 999 [(999, 9)])) = some (.protectionFault, 1000, [.read 999]) ∧
    fatal (step (inHandler 1999 [(1999, 1)])) = some (.boundsFault, 2000, [.read 1999, .read 2000]) := by decide
/-- V85, V86, V87, V88: below, at and above the limit, and with interrupts disabled. -/
theorem test_timer_phase :
    regs (step { period 5 (user 7 [(7, 25)]) with timer := 4 }) = some [8, 1000, 25, 0, 1, 0, 5] ∧
    regs (step { period 5 (user 7 [(7, 25)]) with timer := 5 }) = some [1000, 1994, 0, 0, 0, 0, 0] ∧
    regs (step { period 5 (user 7 [(7, 25)]) with timer := 9 }) = some [1000, 1994, 0, 0, 0, 0, 0] ∧
    regs (step { period 5 (inHandler 1000 [(1000, 25)]) with timer := 5 }) = some [1001, 1994, 25, 0, 1, 0, 5] := by
  decide
/-- V89 -/
theorem test_timer_storm :
    bus (step (period 0 (user 0 [(0, 50)]))) = some [.write 1999 1000, .write 1998 0, .write 1997 0, .write 1996 0,
      .write 1995 0, .write 1994 0] := by decide

/-! ### Placing an instruction, constructing a machine, the interface -/

/-- Every row of the opcode map, with operand 0, runs to its end as the first instruction after reset, but the four that
read the empty user stack (6, 24, 28, 30): those end in the protection fault of their rules. -/
theorem test_first_instruction_completes :
    [1, 2, 3, 4, 5, 7, 8, 9, 10, 11, 12, 13, 14, 15, 16, 17, 18, 19, 20, 21, 22, 23, 25, 26, 27, 29, 50].all (fun w =>
      completes (step (State.reset.withFetchWord 32 w))) = true ∧
    [6, 24, 28, 30].map (fun w => fatal (step (State.reset.withFetchWord 32 w))) =
      [6, 24, 28, 30].map (fun _ => some (.protectionFault, 1000, [.read 0])) := by decide
theorem test_first_instruction_of_64_bits :
    regs (step (State.reset.withFetchWord 64 0x0000000500000001)) = some [2, 1000, 1, 5, 0, 0, 1] := by decide
theorem test_placed_cells :
    (State.reset.withFetchWord 64 0xFFFFFFFE00000007).mem = [(0, 7), (1, -2)] ∧
    (State.reset.withFetchWord 32 50).mem = [(0, 50)] := by decide
theorem test_core_step : core.step core.reset = step State.reset := rfl

/-- A configuration of eight cells. -/
def small : Config :=
  { memorySize := 8, userLimit := 4, timerVector := 4, trapVector := 5, resetSp := 4, resetPc := 0, timeConstraint := 9 }

theorem test_boot : (boot small [1, 5, 50, 0, 30, 30, 0, 7]).map (fun s => (s.mem, s.sp, s.cfg.userLimit)) =
    some ([(0, 1), (1, 5), (2, 50), (4, 30), (5, 30), (7, 7)], 4, 4) := by decide
theorem test_boot_refuses_a_short_image : boot small [1, 5, 50] = none := by decide
/-- R67 to R69: the ends of the array, and a request after `Terminate`. -/
theorem test_service :
    serve 2000 (.read 1999) ⟨[(1999, 4)], true⟩ = .ok (⟨[(1999, 4)], true⟩, some 4) ∧
    serve 2000 (.read 2000) ⟨[], true⟩ = .error .boundsFailure ∧
    serve 2000 (.write (-1) 5) ⟨[], true⟩ = .error .boundsFailure ∧
    serveAll 2000 [.write 0 5, .terminate, .read 0] ⟨[], true⟩ = .error .ended := ⟨rfl, rfl, rfl, rfl⟩
theorem test_fault_codes :
    [FaultKind.protectionFault, .boundsFault, .illegalOpcode, .invalidInterruptCode].map FaultKind.code = [1, 2, 3, 4] :=
  rfl

/-! ### Witnesses

For each obligation with hypotheses, a state and operands that meet all of them together, at the ends of their ranges,
and one for each clause. -/

/-- A running machine with nothing due and the cell at `PC` readable: every value next to the edge of `{1..30, 50}`. -/
theorem witness_UnrecognisedOpcodeIsFatal :
    ∀ v ∈ [0, -1, 31, 49, 51, 2147483647], fetches (user 7 [(7, v)]) ∧
      ¬ (1 ≤ (opcodeCell (user 7 [(7, v)])).toInt ∧ (opcodeCell (user 7 [(7, v)])).toInt ≤ 30) ∧
      (opcodeCell (user 7 [(7, v)])).toInt ≠ 50 := by decide

theorem witness_StepRunsTheDecodedInstruction :
    (fetches (user 999 [(999, 50)]) ∧
      decode [opcodeCell (user 999 [(999, 50)]), operandCell (user 999 [(999, 50)])] = .ok (.halt, [0]) ∧
      operandOf .halt = none) ∧
    (fetches (user 998 [(998, 1), (999, 5)]) ∧ decode [opcodeCell (user 998 [(998, 1), (999, 5)]),
      operandCell (user 998 [(998, 1), (999, 5)])] = .ok (.loadValue 5, []) ∧ operandOf (.loadValue 5) ≠ none ∧
      accessible (user 998 [(998, 1), (999, 5)]) ((user 998 [(998, 1), (999, 5)]).pc + 1)) :=
  ⟨⟨by decide, rfl, rfl⟩, by decide, rfl, by decide, by decide⟩

theorem witness_OpcodeFetchIsChecked :
    ∀ s ∈ [user 1000 [], user (-1) [], inHandler 2000 [], inHandler (-1) []],
      s.run = .running ∧ ¬ timerDue s ∧ ¬ accessible s s.pc := by decide

theorem witness_OperandFetchComesFirst :
    (fetches (user 998 [(998, 9)]) ∧ (opcodeCell (user 998 [(998, 9)])).toInt ∈ operandOpcodes ∧
      accessible (user 998 [(998, 9)]) ((user 998 [(998, 9)]).pc + 1)) ∧
    (fetches (user 999 [(999, 9)]) ∧ (opcodeCell (user 999 [(999, 9)])).toInt ∈ operandOpcodes ∧
      ¬ accessible (user 999 [(999, 9)]) ((user 999 [(999, 9)]).pc + 1)) := by decide

/-- A two-cell and a one-cell instruction placed at the end of user space, for `Dispatches`. -/
theorem witness_Dispatches : Placed (.jump 5) (user 998 [(998, 20), (999, 5)]) ∧ Placed .addX (user 999 [(999, 10)]) := by
  refine ⟨⟨by decide, rfl, ?_⟩, by decide, rfl, ?_⟩
  · rintro v ⟨⟩; exact ⟨rfl, by decide⟩
  · rintro v ⟨⟩

theorem witness_TimerPhaseComesFirst :
    timerDue { period 5 (user 7 []) with timer := 5 } ∧ timerDue { period 5 (user 7 []) with timer := 6 } ∧ (user 7 []).ie = true ∧
    (user 7 []).run = .running ∧
    ({ user 7 [] with timer := 999 } : State).timer.toInt < (user 7 []).cfg.timeConstraint.toInt ∧
    (inHandler 7 []).ie = false ∧ (inHandler 7 []).run = .running :=
  ⟨by decide, by decide, rfl, rfl, by decide, rfl, rfl⟩

theorem witness_NoStepOnceStopped :
    ({ user 0 [] with run := .halted } : State).run ≠ .running ∧
    ({ user 0 [] with run := .faulted .boundsFault (-1) } : State).run ≠ .running ∧
    completes (step (user 0 [(0, 10)])) = true := by decide

/-- The four ends of the two ranges, in each mode; no address meets the hypotheses of two clauses. -/
theorem witness_PermissionThenBounds :
    ([1000, 2000, 2147483647].all fun a : Word => (user 0 []).cfg.userLimit.toInt ≤ a.toInt) ∧
    ([-1, -2147483648].all fun a : Word => a.toInt < (user 0 []).cfg.userLimit.toInt ∧ a.toInt < 0) ∧
    ([-1, 2000].all fun a : Word => a.toInt < 0 ∨ (inHandler 0 []).cfg.memorySize.toInt ≤ a.toInt) ∧
    ([0, 999].all fun a : Word => a.toInt < (user 0 []).cfg.userLimit.toInt ∧ 0 ≤ a.toInt ∧
      a.toInt < (user 0 []).cfg.memorySize.toInt) ∧
    ([0, 1000, 1999].all fun a : Word => 0 ≤ a.toInt ∧ a.toInt < (inHandler 0 []).cfg.memorySize.toInt) ∧
    (user 0 []).mode = .user ∧ (inHandler 0 []).mode = .kernel := by decide

theorem witness_ReadReturnsTheLastWrite :
    ∃ t t', memWrite 999 5 (user 0 []) = .next t ∧ (0 : Word) ≠ 999 ∧ memWrite 0 7 t = .next t' :=
  ⟨_, _, rfl, by decide, rfl⟩

/-- The first push and the pop that undoes it; the push from one cell higher, and the pop of the empty stack. -/
theorem witness_PushAndPopPrimitives :
    accessible (user 0 []) ((user 0 []).sp - 1) ∧
    ¬ accessible { user 0 [] with sp := 1001 } (({ user 0 [] with sp := 1001 } : State).sp - 1) ∧
    ¬ accessible { user 0 [] with sp := 0 } (({ user 0 [] with sp := 0 } : State).sp - 1) ∧
    accessible { user 0 [] with sp := 999 } ({ user 0 [] with sp := 999 } : State).sp ∧
    ¬ accessible (user 0 []) (user 0 []).sp := by decide

theorem witness_StackIsLastInFirstOut : ∃ t, pushAll [11, 22, 33] (user 0 []) = .next t := ⟨_, rfl⟩

/-- For each of the four loads, an address that may be read and one that may not. -/
theorem witness_LoadsReadTheirEffectiveAddress :
    ∀ i ∈ [Instr.loadAddr 999, .loadIdxX 998, .loadIdxY 998, .loadSpX],
      (∀ ea, loadAddress i { user 0 [] with sp := 998, x := 1, y := 1 } = some ea →
        accessible { user 0 [] with sp := 998, x := 1, y := 1 } ea) ∧
      (∀ j ∈ [Instr.loadAddr 1000, .loadIdxX 998, .loadIdxY 998, .loadSpX],
        ∀ ea, loadAddress j { user 0 [] with sp := 998, x := 2, y := 2 } = some ea →
          ¬ accessible { user 0 [] with sp := 998, x := 2, y := 2 } ea) ∧
      (loadAddress i (user 0 [])).isSome = true := by
  intro i hi
  refine ⟨?_, ?_, ?_⟩
  · simp only [List.mem_cons, List.not_mem_nil, or_false] at hi
    rcases hi with rfl | rfl | rfl | rfl <;> rintro ea ⟨⟩ <;> decide
  · intro j hj
    simp only [List.mem_cons, List.not_mem_nil, or_false] at hj
    rcases hj with rfl | rfl | rfl | rfl <;> rintro ea ⟨⟩ <;> decide
  · simp only [List.mem_cons, List.not_mem_nil, or_false] at hi
    rcases hi with rfl | rfl | rfl | rfl <;> decide

theorem witness_LoadIndReadsTwice :
    ¬ accessible (user 0 []) 1000 ∧
    (accessible (user 0 [(500, 1500)]) 500 ∧
      ¬ accessible (user 0 [(500, 1500)]) ((user 0 [(500, 1500)]).mem.read (500 : Word).toNat)) ∧
    (accessible (user 0 [(999, 0)]) 999 ∧
      accessible (user 0 [(999, 0)]) ((user 0 [(999, 0)]).mem.read (999 : Word).toNat)) := by decide

theorem witness_StoreWritesOneCell : accessible (user 0 []) 0 ∧ accessible (user 0 []) 999 ∧
    ¬ accessible (user 0 []) 1000 ∧ ¬ accessible (user 0 []) (-1) := by decide

theorem witness_StoreIsSeenByTheNextFetch :
    (user 0 []).run = .running ∧ ¬ timerDue (user 0 []) ∧ accessible (user 0 []) ((user 0 []).pc + 2) ∧
    encode .halt = [({ user 0 [] with ac := 50 } : State).ac] := ⟨rfl, by decide, by decide, rfl⟩

/-- The ports on both sides of the two that print. -/
theorem witness_PutPrintsOrReports : [0, 3, -1].all fun p : Word => p ≠ 1 ∧ p ≠ 2 := by decide

/-- For `Call`, `Push` and `Ret`, `Pop`: a stack that may be used and one that may not. -/
theorem witness_CallPushRetPop :
    accessible (user 4 []) ((user 4 []).sp - 1) ∧
    ¬ accessible { user 4 [] with sp := 1001 } (({ user 4 [] with sp := 1001 } : State).sp - 1) ∧
    accessible { user 4 [] with sp := 999 } ({ user 4 [] with sp := 999 } : State).sp ∧
    ¬ accessible (user 4 []) (user 4 []).sp := by decide

theorem witness_RetReturnsAfterTheCall :
    ∃ t u : State, exec (.call 100) (user 4 []) = .next t ∧ u.mode = t.mode ∧ u.cfg = t.cfg ∧ u.sp = t.sp ∧
      u.mem.read t.sp.toNat = t.mem.read t.sp.toNat ∧ u.pc ≠ t.pc :=
  ⟨_, { user 200 [(999, 6)] with sp := 999 }, rfl, rfl, rfl, rfl, rfl, by decide⟩

theorem witness_InterruptEntryBuildsTheFrame :
    (user 0 []).cfg.wf ∧ (user 0 []).run = .running ∧ timerDue { user 0 [] with timer := 1000 } ∧
    (inHandler 0 []).cfg.wf := by decide

/-- The six cells at the top of user space; and a first fault on the first, third and last pop. -/
theorem witness_IretRestoresTheFrame :
    (∀ k < 6, accessible { user 0 [] with sp := 994 } (({ user 0 [] with sp := 994 } : State).sp + BitVec.ofNat 32 k)) ∧
    ∀ j ∈ [0, 2, 5], (∀ k < j, accessible { user 0 [] with sp := 1000 - BitVec.ofNat 32 j }
        (({ user 0 [] with sp := 1000 - BitVec.ofNat 32 j } : State).sp + BitVec.ofNat 32 k)) ∧
      ¬ accessible { user 0 [] with sp := 1000 - BitVec.ofNat 32 j }
        (({ user 0 [] with sp := 1000 - BitVec.ofNat 32 j } : State).sp + BitVec.ofNat 32 j) := by decide

/-- A trap whose handler changed `AC`, `X` and its own cell 1900. -/
theorem witness_TrapContextIntegrity_trap :
    ∃ t u : State, (user 3 []).cfg.wf ∧ exec .int (user 3 []) = .next t ∧ u.cfg = t.cfg ∧ u.mode = .kernel ∧
      u.handler = t.handler ∧ u.sp = (user 3 []).cfg.memorySize - 6 ∧ u.ac = 9 ∧
      ∀ a : Nat, (user 3 []).cfg.memorySize.toInt - 6 ≤ a → (a : Int) < (user 3 []).cfg.memorySize.toInt →
        u.mem.read a = t.mem.read a :=
  ⟨_, { inHandler 1502 [(1998, 3), (1999, 1000)] with handler := some .trap, ac := 9 }, by decide, rfl, rfl, rfl, rfl,
    rfl, rfl, fun _ _ _ => rfl⟩

theorem witness_TrapContextIntegrity_timer :
    ∃ t u : State, (user 3 []).run = .running ∧ timerDue { user 3 [] with timer := 1000 } ∧
      step { user 3 [] with timer := 1000 } = .next t ∧ u.cfg = t.cfg ∧ u.mode = .kernel ∧ u.handler = t.handler ∧
      u.sp = (user 3 []).cfg.memorySize - 6 ∧ u.x = 7 ∧
      ∀ a : Nat, (user 3 []).cfg.memorySize.toInt - 6 ≤ a → (a : Int) < (user 3 []).cfg.memorySize.toInt →
        u.mem.read a = t.mem.read a :=
  ⟨_, { inHandler 1007 [(1998, 3), (1999, 1000)] with x := 7 }, rfl, by decide, rfl, rfl, rfl, rfl, rfl, rfl,
    fun _ _ _ => rfl⟩

/-- Steps that answer: one that halts, one that goes on, one that is an entry; from a state that meets the invariant. For
`NoStepOnceStopped`, `OnlyEndHalts`, `EveryStepKeepsTheInvariant`, `BusTraceOfAStep`, `StepsAgreeWithTheMemoryService`,
`StreamsGrowAndConfigurationStays` and the entry of `TimerCountsWhileEnabled`. -/
theorem witness_steps :
    (∃ t, step (user 4 [(4, 50)]) = .next t ∧ t.run = .halted) ∧ (user 4 [(4, 50)]).Inv ∧
    (∃ t, step (user 4 [(4, 9), (5, 1)]) = .next t ∧ t.run = .running) ∧ (user 4 [(4, 9), (5, 1)]).Inv ∧
    (∃ t, step { user 4 [] with timer := 1000 } = .next t) ∧ timerDue { user 4 [] with timer := 1000 } ∧
    ({ user 4 [] with timer := 1000 } : State).Inv :=
  ⟨⟨_, rfl, rfl⟩, ⟨by decide, by decide, by decide, by decide⟩, ⟨_, rfl, rfl⟩,
    ⟨by decide, by decide, by decide, by decide⟩, ⟨_, rfl⟩, by decide, ⟨by decide, by decide, by decide, by decide⟩⟩

theorem witness_ModeChangesOnlyByEntryAndReturn :
    (∃ t, step (user 3 [(3, 29)]) = .next t ∧ (user 3 []).mode = .user ∧ t.mode = .kernel) ∧
    ∃ t, step (inHandler 1007 ((1007, 30) :: frame 25 7)) = .next t ∧ (inHandler 1007 []).mode = .kernel ∧
      t.mode = .user :=
  ⟨⟨_, rfl, rfl, rfl⟩, _, rfl, rfl, rfl⟩

/-- `AddX` writes `AC` alone: the hypotheses of every clause but `AC`'s; `Jump` and `CopyToX` meet that one and `X`'s. -/
theorem witness_RegistersChangeByTheirOpcodesOnly :
    (∃ t, exec .addX (user 0 []) = .next t) ∧ (opcodeOf .addX).toInt ∉ [14, 25, 26, 30] ∧
    (∃ t, exec (.jump 4) (user 0 []) = .next t) ∧
    (opcodeOf (.jump 4)).toInt ∉ [1, 2, 3, 4, 5, 6, 8, 10, 11, 12, 13, 15, 17, 19, 28, 30] :=
  ⟨⟨_, rfl⟩, by decide, ⟨_, rfl⟩, by decide⟩

theorem witness_MemoryChangesAtStoredCellsOnly :
    (∃ t, exec (.store 500) (user 0 []) = .next t) ∧ ∀ w ∈ storedCells (.store 500) (user 0 []), 501 ≠ w.toNat :=
  ⟨⟨_, rfl⟩, by simp [storedCells]⟩

theorem witness_ConstructionLoadsTheImage :
    small.wf ∧ imageWf small [1, 5, 50, 0, 30, 30, 0, 7] ∧
    ([1, 5, 50, 0, 30, 30, 0, 7] : List Word)[7]? = some 7 ∧ ¬ (small.wf ∧ imageWf small [1, 5, 50]) := by decide

theorem witness_TimerCountsWhileEnabled :
    (∃ t, step (inHandler 1000 [(1000, 25)]) = .next t ∧ (inHandler 1000 []).ie = false) ∧
    (∃ t, step { user 4 [(4, 25)] with timer := 999 } = .next t ∧ (user 4 []).ie = true ∧
      ¬ timerDue { user 4 [(4, 25)] with timer := 999 }) :=
  ⟨⟨_, rfl, rfl⟩, _, rfl, rfl, by decide⟩

/-- With `timeConstraint = 1`: one instruction, and then the entry. -/
theorem witness_TimerFiresEveryKInstructions :
    ∃ (run : Nat → State) (k : Nat), (run 0).cfg.wf ∧ (run 0).cfg.timeConstraint.toInt = k ∧ 1 ≤ k ∧
      (run 0).timer = 0 ∧ (run 0).ie = true ∧ (∀ j < k, step (run j) = .next (run (j + 1))) ∧
      (∀ j < k, opcodeCell (run j) ≠ 29) ∧ (run k).run = .running := by
  refine ⟨fun n => if n = 0 then period 1 (user 0 [(0, 25)]) else
    { period 1 (user 1 [(0, 25)]) with ir := 25, x := 1, timer := 1, bus := [.read 0] }, 1, by decide, by decide,
    by decide, rfl, rfl, ?_, ?_, rfl⟩ <;>
  · intro j hj
    obtain rfl : j = 0 := by omega
    first | rfl | decide

/-- A step inside a timer handler, with interrupts disabled and the timer at and past its limit. -/
theorem witness_TimerFires_disabled :
    ∀ k ∈ [1, 2], ∃ t, (period 1 { inHandler 1000 [(1000, 25)] with timer := k }).ie = false ∧
      (period 1 { inHandler 1000 [(1000, 25)] with timer := k }).handler = some .timer ∧
      step (period 1 { inHandler 1000 [(1000, 25)] with timer := k }) = .next t := by
  intro k hk
  simp only [List.mem_cons, List.not_mem_nil, or_false] at hk
  rcases hk with rfl | rfl <;> exact ⟨_, rfl, rfl, rfl⟩

theorem witness_NonPositiveConstraintIsAStorm :
    ∃ t v, (period 0 (user 0 [])).cfg.wf ∧ (period 0 (user 0 [])).run = .running ∧ (period 0 (user 0 [])).ie = true ∧
      (period 0 (user 0 [])).cfg.timeConstraint.toInt ≤ 0 ∧ 0 ≤ (period 0 (user 0 [])).timer.toInt ∧
      step (period 0 (user 0 [])) = .next t ∧ t.run = .running ∧ FrameHolds (period 0 (user 0 [])) t.mem ∧
      exec .iret t = .next v :=
  ⟨_, _, by decide, rfl, rfl, by decide, by decide, rfl, rfl, ⟨rfl, rfl, rfl, rfl, rfl, rfl⟩, rfl⟩

theorem witness_UserModeLeavesSystemSpaceAlone :
    ∃ t, (user 0 [(0, 7), (1, 999)]).mode = .user ∧ step (user 0 [(0, 7), (1, 999)]) = .next t ∧
      ¬ timerDue (user 0 [(0, 7), (1, 999)]) ∧ opcodeCell (user 0 [(0, 7), (1, 999)]) ≠ 29 ∧
      (user 0 []).cfg.userLimit.toInt ≤ (1000 : Nat) := ⟨_, rfl, rfl, by decide, by decide, by decide⟩

/-- Two states that differ at the first and the last cell of system space. -/
theorem witness_UserModeCannotReadSystemSpace :
    (user 0 [(0, 10)]).mode = .user ∧ SameBelow (user 0 [(0, 10)]) (user 0 [(0, 10), (1000, 5), (1999, 6)]) ∧
    (user 0 [(0, 10)]).mem ≠ (user 0 [(0, 10), (1000, 5), (1999, 6)]).mem := by
  refine ⟨rfl, ⟨rfl, fun a ha => ?_⟩, by decide⟩
  have h : (a : Int) < 1000 := ha
  simp only [user, show cells [(0, 10), (1000, 5), (1999, 6)] = [(0, 10), (1000, 5), (1999, 6)] from rfl,
    show cells [(0, 10)] = [(0, 10)] from rfl, Memory.read]
  split
  · rfl
  · rw [if_neg (by omega), if_neg (by omega)]

/-- One step for each kind that can be raised, in each mode that can raise it. -/
theorem witness_FaultsByMode :
    (user 0 []).cfg.wf ∧ (∃ f, step (user 1000 []) = .fault (.fatal .protectionFault 1000 f)) ∧
    (∃ f, step (user (-1) []) = .fault (.fatal .boundsFault (-1) f)) ∧
    (∃ f, step (user 7 []) = .fault (.fatal .illegalOpcode 0 f)) ∧
    (∃ f, step (inHandler 2000 []) = .fault (.fatal .boundsFault 2000 f)) ∧
    ∃ f, step (inHandler 1000 [(1000, 31)]) = .fault (.fatal .illegalOpcode 31 f) :=
  ⟨by decide, ⟨_, rfl⟩, ⟨_, rfl⟩, ⟨_, rfl⟩, ⟨_, rfl⟩, _, rfl⟩

/-- A faulting store: there is something to leave unchanged. -/
theorem witness_FaultsChangeNoMemory :
    ∃ f, step { user 0 [(0, 7), (1, 1500)] with ac := 7 } = .fault (.fatal .protectionFault 1500 f) := ⟨_, rfl⟩

/-- A list that ends in `Terminate`, and one without it. -/
theorem witness_NothingIsServedAfterTerminate :
    serveAll 2000 [.read 5, .terminate] ⟨[(5, 7)], true⟩ = .ok (⟨[(5, 7)], false⟩, [7]) ∧
    ([.read 5, .terminate] : List BusRequest) = [.read 5] ++ .terminate :: [] ∧
    serveAll 2000 [.write 0 1] ⟨[], true⟩ = .ok (⟨[(0, 1)], true⟩, []) ∧ BusRequest.terminate ∉ [.write 0 1] :=
  ⟨rfl, rfl, rfl, by decide⟩

/-- Each kind, with the first and the last address a `Read` has on the wire; and for each kind two requests with the same
first integer, of which the two `Write`s are different requests: the one sentinel stands before both. -/
theorem witness_WireTellsRequestsApart :
    (∀ r ∈ [BusRequest.read 0, .read 2147483647, .write (-1) (-1), .write 0 7, .terminate],
      (∀ a, r = .read a → 0 ≤ a.toInt) ∧ ∃ first, r.wire.head? = some first) ∧
    (BusRequest.write (-1) (-1)).wire.head? = (BusRequest.write 0 7).wire.head? ∧
    (BusRequest.write (-1) (-1)).wire.head? = some Config.writeSentinel ∧
    BusRequest.terminate.wire.head? = some Config.terminateSentinel ∧
    (BusRequest.read 0).wire.head? = some 0 := by
  refine ⟨fun r hr => ?_, rfl, rfl, rfl, rfl⟩
  simp only [List.mem_cons, List.not_mem_nil, or_false] at hr
  rcases hr with rfl | rfl | rfl | rfl | rfl <;> refine ⟨?_, _, rfl⟩ <;> rintro a ⟨⟩ <;> decide

end Sys2Proof.Tests
end

section
/-! PROOFS. The memory family (spec 20_memory.md): the store/load round trip (R82) and the stack discipline (R79). -/

namespace Sys2Proof.Machine

open Sys2Proof.Claims

/-! ### Reading after a write -/

/-- A write changes neither check, so an address that passed them before it still does. -/
theorem accessible_of_memWrite {s t : State} {b w a : Word} (hw : memWrite b w s = .next t) :
    accessible t a ↔ accessible s a := by
  obtain ⟨-, rfl⟩ := memWrite_eq_next hw
  exact accessible_congr rfl rfl a

/-- The cell written reads back as the value written. -/
theorem memRead_memWrite_same {s t : State} {a v : Word} (hw : memWrite a v s = .next t) :
    memRead a t = .next (v, request (.read a) t) := by
  obtain ⟨ha, ht⟩ := memWrite_eq_next hw
  rw [memRead_of_accessible ((accessible_of_memWrite hw).2 ha)]
  simp [ht]

/-- A write elsewhere leaves what a read of `a` returns. -/
theorem memRead_memWrite_other {s t u : State} {a b v w : Word} (hr : memRead a s = .next (v, u)) (hne : b ≠ a)
    (hw : memWrite b w s = .next t) : memRead a t = .next (v, request (.read a) t) := by
  obtain ⟨hacc, hv⟩ := memRead_eq_next hr
  obtain ⟨-, ht⟩ := memWrite_eq_next hw
  have hkey : a.toNat ≠ b.toNat := fun h => hne (BitVec.eq_of_toNat_eq h.symm)
  cases hv
  rw [memRead_of_accessible ((accessible_of_memWrite hw).2 hacc)]
  simp [ht, Memory.read_write_other w hkey]

/-! ### Pushes -/

/-- No push wraps: the cell below `a` is in bounds only where `a` is one above it as a key too, since a memory has at
most `2 ^ 31 - 1` cells. -/
theorem toNat_sub_one_of_inBounds {s : State} {a : Word} (h : inBounds s (a - 1)) :
    (a - 1).toNat + 1 = a.toNat := by
  have hkey := toNat_of_inBounds h
  have hsize := s.cfg.memorySize.toInt_lt
  have hlt := h.2
  bv_omega

/-- What a non-empty list of pushes that answers has done. -/
theorem pushAll_cons_eq_next {v : Word} {vs : List Word} {s t : State} :
    pushAll (v :: vs) s = .next t ↔ ∃ s1, push v s = .next s1 ∧ pushAll vs s1 = .next t :=
  andThen_eq_next

/-- Pushes that succeed write below `SP` only: the cells from `SP` upward stay (R77). -/
theorem read_pushAll {vs : List Word} {s t : State} (h : pushAll vs s = .next t) {b : Nat} (hb : s.sp.toNat ≤ b) :
    t.mem.read b = s.mem.read b := by
  induction vs generalizing s with
  | nil => cases h; rfl
  | cons v vs ih =>
    obtain ⟨s1, hpush, hrest⟩ := pushAll_cons_eq_next.1 h
    obtain ⟨hacc, rfl⟩ := push_eq_next hpush
    have hstep := toNat_sub_one_of_inBounds hacc.2
    calc t.mem.read b = (s.mem.write (s.sp - 1).toNat v).read b := ih hrest (show (s.sp - 1).toNat ≤ b by omega)
      _ = s.mem.read b := Memory.read_write_other v (by omega)

/-! ### Pops -/

/-- One pop more, taken last. -/
theorem popMany_succ {n : Nat} {t u u' : State} {ws : List Word} {w : Word}
    (hpops : popMany n t = .next (ws, u)) (hpop : pop u = .next (w, u')) :
    popMany (n + 1) t = .next (ws ++ [w], u') := by
  induction n generalizing t ws with
  | zero => cases hpops; simp [popMany, hpop]
  | succ n ih =>
    obtain ⟨r, hr, hrest⟩ := andThen_eq_next.1 hpops
    obtain ⟨q, hq, hws⟩ := andThen_eq_next.1 hrest
    cases hws
    rw [popMany, hr, andThen_next, ih hq]
    rfl

/-- The stack discipline (R79), with what the pop of the next value needs to know: the mode and the configuration are
as they were before the pushes. -/
theorem popMany_pushAll {vs : List Word} {s t : State} (h : pushAll vs s = .next t) :
    ∃ u, popMany vs.length t = .next (vs.reverse, u) ∧ u.sp = s.sp ∧ u.mem = t.mem ∧
      u.mode = s.mode ∧ u.cfg = s.cfg := by
  induction vs generalizing s with
  | nil => cases h; exact ⟨_, rfl, rfl, rfl, rfl, rfl⟩
  | cons v vs ih =>
    obtain ⟨s1, hpush, hrest⟩ := pushAll_cons_eq_next.1 h
    obtain ⟨hacc, rfl⟩ := push_eq_next hpush
    obtain ⟨u, hpops, hsp, hmem, hmode, hcfg⟩ := ih hrest
    replace hsp : u.sp = s.sp - 1 := hsp
    have hcell : u.mem.read u.sp.toNat = v := by
      rw [hsp, hmem]
      exact (read_pushAll hrest le_rfl).trans (Memory.read_write_same ..)
    have haccu : accessible u u.sp := hsp ▸ (accessible_congr hmode hcfg _).2 hacc
    have hlast := popMany_succ hpops (pop_of_accessible haccu)
    rw [hcell, ← List.reverse_cons] at hlast
    exact ⟨_, hlast, by simp [hsp], hmem, hmode, hcfg⟩

end Sys2Proof.Machine

open Sys2Proof Sys2Proof.Machine

/-- Settles O11: a write that succeeds reads back, and a write elsewhere changes neither the checks nor the cell. -/
theorem readReturnsTheLastWrite : Obligations.ReadReturnsTheLastWrite := by
  intro s t a v hw
  have hr := memRead_memWrite_same hw
  exact ⟨⟨_, hr⟩, fun b w t' hne hw' => ⟨_, memRead_memWrite_other hr hne hw'⟩⟩

/-- Settles O13, by induction on the pushes: later pushes write strictly below the cell of an earlier one. -/
theorem stackIsLastInFirstOut : Obligations.StackIsLastInFirstOut := by
  intro vs s t h
  obtain ⟨u, hpops, hsp, hmem, -, -⟩ := popMany_pushAll h
  exact ⟨u, hpops, hsp, hmem⟩

end

section
/-! PROOFS. The encoding family (spec 30_encoding.md): a cell that is no opcode ends the run in the decode phase (R107,
R188). -/

namespace Sys2Proof.Machine

open Sys2Proof.Claims

/-- The timer phase and the opcode fetch lead to the state the statements call `afterOpcode`. -/
theorem opcodeFetched_timerTick (s : State) : opcodeFetched (timerTick s) = afterOpcode s := by
  rw [timerTick_eq]; rfl

/-- A step that fetches a cell with no entry in the opcode map raises `IllegalOpcode` of it (R188). -/
theorem step_illegal {s : State} (hf : fetches s) (hd : decodeOpcode (opcodeCell s) = none) :
    step s = raise .illegalOpcode (opcodeCell s) (afterOpcode s) := by
  obtain ⟨hrun, hdue, hacc⟩ := hf
  have hacc' : accessible (timerTick s) (timerTick s).pc := by rwa [timerTick_pc, accessible_timerTick]
  have hcell : (timerTick s).mem.read (timerTick s).pc.toNat = opcodeCell s := by
    rw [timerTick_mem, timerTick_pc, opcodeCell]
  rw [step_running hrun hdue, fetch_illegal hacc' (hcell ▸ hd), andThen_raise, hcell, opcodeFetched_timerTick]

end Sys2Proof.Machine

open Sys2Proof Sys2Proof.Machine

/-- Settles O4: the opcode map has no entry outside `{1..30, 50}`, so the decode phase raises before any second read. -/
theorem unrecognisedOpcodeIsFatal : Obligations.UnrecognisedOpcodeIsFatal := by
  intro s hf hrange hhalt
  exact step_illegal hf (decodeOpcode_none.2 ⟨hrange, hhalt⟩)

end

section
/-! PROOFS. The load and store family (spec 41_load_store.md): a step reaches `exec` of the instruction placed at `PC`,
the indirect load reads twice (R142), and the store writes one cell (R146). -/

namespace Sys2Proof

/-- The opcode map gives a one-cell instruction back from its own opcode. -/
theorem decodeOpcode_opcodeOf_zero {i : Instr} (h : operandOf i = none) :
    decodeOpcode (opcodeOf i) = some (.zero i) := by
  cases i <;> cases h <;> rfl

/-- The opcode map gives a two-cell instruction back from its own opcode and operand. -/
theorem decodeOpcode_opcodeOf_one {i : Instr} {v : Word} (h : operandOf i = some v) :
    ∃ mk, decodeOpcode (opcodeOf i) = some (.one mk) ∧ mk v = i := by
  cases i <;> cases h <;> exact ⟨_, rfl, rfl⟩

end Sys2Proof

namespace Sys2Proof.Machine

open Sys2Proof.Claims

/-! ### From the step to the execute phase -/

@[simp] theorem opcodeCell_timerTick (s : State) : opcodeCell (timerTick s) = opcodeCell s := by
  simp [opcodeCell]

@[simp] theorem operandCell_timerTick (s : State) : operandCell (timerTick s) = operandCell s := by
  simp [operandCell]

/-- The timer phase and both fetches lead to the state the statements call `afterOperand`. -/
theorem operandFetched_timerTick (s : State) : operandFetched (timerTick s) = afterOperand s := by
  simp [operandFetched, opcodeFetched_timerTick, request, afterOpcode, afterOperand]

/-- The fetch after the timer phase answers a placed instruction, with the state its execute phase begins in. -/
theorem fetch_placed {i : Instr} {s : State} (h : Placed i s) : fetch (timerTick s) = .next (i, begun i s) := by
  obtain ⟨⟨-, -, hacc⟩, hop, hopnd⟩ := h
  have hacc' : accessible (timerTick s) (timerTick s).pc := by rwa [timerTick_pc, accessible_timerTick]
  have hcell : (timerTick s).mem.read (timerTick s).pc.toNat = opcodeOf i := (opcodeCell_timerTick s).trans hop
  cases hi : operandOf i with
  | none =>
    rw [fetch_zero hacc' (hcell ▸ decodeOpcode_opcodeOf_zero hi), opcodeFetched_timerTick, begun, if_pos hi]
  | some v =>
    obtain ⟨hv, hacc2⟩ := hopnd v hi
    obtain ⟨mk, hmk, rfl⟩ := decodeOpcode_opcodeOf_one hi
    have hacc2' : accessible (timerTick s) ((timerTick s).pc + 1) := by rwa [timerTick_pc, accessible_timerTick]
    have hv' : (timerTick s).mem.read ((timerTick s).pc + 1).toNat = v := (operandCell_timerTick s).trans hv
    rw [fetch_one hacc' (hcell ▸ hmk) hacc2', hv', operandFetched_timerTick, begun, if_neg (by simp [hi])]

/-- Every instruction dispatches: a step of a placed instruction is `exec` of it. -/
theorem dispatches (i : Instr) : Dispatches i := by
  intro s h
  obtain ⟨hrun, hdue, -⟩ := h.1
  rw [step_running hrun hdue, fetch_placed h, andThen_next]

/-! ### Accesses that are refused -/

/-- The fault of the access primitives is the one the statements call `refusedAccess` (R74). -/
theorem accessFault_eq_refusedAccess (s : State) (a : Word) (r : BusRequest) :
    accessFault s a r = refusedAccess s a r := rfl

/-- A load whose address is not accessible ends the run with `AC` and `PC` as they were. -/
theorem loadAc_of_not_accessible {ea : Word} (n : Word) {s : State} (h : ¬ accessible s ea) :
    loadAc ea n s = .fault (refusedAccess s ea (.read ea)) := by
  rw [loadAc, memRead_of_not_accessible h, andThen_fault, accessFault_eq_refusedAccess]

/-! ### The indirect load and the store -/

/-- Opcode 3 is a read of the pointer, then a load from where it points (R142). -/
theorem exec_loadInd (a : Word) (s : State) :
    exec (.loadInd a) s = andThen (memRead a s) fun r => loadAc r.1 2 r.2 := rfl

/-- Opcode 7 is a write of `AC`, then the advance of `PC` (R146). -/
theorem exec_store (a : Word) (s : State) :
    exec (.store a) s = andThen (memWrite a s.ac s) fun s1 => .next (advance 2 s1) := rfl

/-- The indirect load whose pointer is not accessible stops at the first read. -/
theorem exec_loadInd_of_not_accessible {a : Word} {s : State} (h : ¬ accessible s a) :
    exec (.loadInd a) s = .fault (refusedAccess s a (.read a)) := by
  rw [exec_loadInd, memRead_of_not_accessible h, andThen_fault, accessFault_eq_refusedAccess]

/-- The indirect load whose pointer is accessible loads from where it points, with the first read on the bus. -/
theorem exec_loadInd_of_accessible {a : Word} {s : State} (h : accessible s a) :
    exec (.loadInd a) s = loadAc (s.mem.read a.toNat) 2 (request (.read a) s) := by
  rw [exec_loadInd, memRead_of_accessible h, andThen_next]

/-- A store that is refused changes no cell. -/
theorem exec_store_of_not_accessible {a : Word} {s : State} (h : ¬ accessible s a) :
    exec (.store a) s = .fault (refusedAccess s a (.write a s.ac)) := by
  rw [exec_store, memWrite_of_not_accessible h, andThen_fault, accessFault_eq_refusedAccess]

/-- A store that is allowed leaves the written memory, and `PC` after its two cells. -/
theorem exec_store_of_accessible {a : Word} {s : State} (h : accessible s a) :
    exec (.store a) s =
      .next { s with pc := s.pc + 2, mem := s.mem.write a.toNat s.ac, bus := s.bus ++ [.write a s.ac] } := by
  rw [exec_store, memWrite_of_accessible h, andThen_next]; rfl

/-- A memory write stores its value in its one cell. -/
theorem stored_write (m : Memory) (a v : Word) : Stored m (m.write a.toNat v) a v :=
  ⟨Memory.read_write_same .., fun _ hb => Memory.read_write_other v hb⟩

end Sys2Proof.Machine

open Sys2Proof Sys2Proof.Machine

/-- Settles O16: the pointer is read first, and the second read runs in the state with that request on the bus, whose
mode, configuration and cells are those of `s`. -/
theorem loadIndReadsTwice : Obligations.LoadIndReadsTwice := by
  intro a s
  refine ⟨rfl, dispatches _, exec_loadInd_of_not_accessible, fun ha => ?_⟩
  have hsame := accessible_congr (s := s) (t := request (.read a) s) rfl rfl (s.mem.read a.toNat)
  rw [exec_loadInd_of_accessible ha]
  constructor
  · intro hb
    exact loadAc_of_not_accessible 2 (mt hsame.1 hb)
  · intro hb
    rw [loadAc_of_accessible 2 (hsame.2 hb)]
    simp [request]

/-- Settles O17: the write primitive decides, and `PC` moves only after it has answered. -/
theorem storeWritesOneCell : Obligations.StoreWritesOneCell := by
  intro a s
  exact ⟨rfl, dispatches _, fun ha => ⟨_, exec_store_of_accessible ha, rfl, stored_write s.mem a s.ac⟩,
    exec_store_of_not_accessible⟩

/-- Settles O14: the meaning of opcode 1 has no access in it. -/
theorem loadValueCopiesTheOperand : Obligations.LoadValueCopiesTheOperand :=
  fun value _ => ⟨rfl, dispatches (.loadValue value), rfl⟩

end

section
/-! PROOFS. The arithmetic and moves family (spec 43_alu_moves.md): a register move accesses no memory, so it completes
in every state (R159 to R164). -/

namespace Sys2Proof.Machine

/-- An instruction other than `Int` that accesses no memory completes in every state. -/
theorem exec_of_accesses_eq_nil {i : Instr} {s : State} (h : accesses i s = []) (hint : i ≠ .int) :
    exec i s = .next (executed i s) :=
  exec_of_accessible (by simp [h]) fun hi => absurd hi hint

end Sys2Proof.Machine

open Sys2Proof Sys2Proof.Machine

/-- Settles O22: the moves access no memory, so each leaves the state `executed` says: its destination and `PC`
written. Nothing is asked of the value that goes to `SP`. -/
theorem registerMoves : Obligations.RegisterMoves := by
  refine ⟨⟨rfl, rfl, rfl, rfl, rfl, rfl⟩, fun i _ => dispatches i, fun s => ⟨?_, ?_, ?_, ?_, ?_, ?_⟩⟩ <;>
    exact exec_of_accesses_eq_nil rfl nofun

end

section
/-! PROOFS. The exceptions family (spec 60_exceptions.md): the period of the timer (R233). A step that is no timer entry
begins with a read on the bus and so is told from an entry, whose first request is a write; and it counts in the timer. -/

namespace Sys2Proof.Machine

open Sys2Proof.Claims

/-! ### What every instruction keeps -/

/-- No instruction writes the timer: a trap entry leaves it too (R29). -/
@[simp] theorem executed_timer (i : Instr) (s : State) : (executed i s).timer = s.timer := by
  cases i <;> rfl

/-- No instruction writes the configuration. -/
@[simp] theorem executed_cfg (i : Instr) (s : State) : (executed i s).cfg = s.cfg := by
  cases i <;> rfl

/-- `Int` is the one instruction that disables interrupts; `IRet` enables them. -/
theorem executed_ie {i : Instr} (s : State) (hi : i ≠ .int) (h : s.ie = true) : (executed i s).ie = true := by
  cases i
  case int => exact absurd rfl hi
  case iret => rfl
  all_goals exact h

/-- An instruction extends the bus trace. -/
theorem executed_extends_bus (i : Instr) (s : State) : s.bus <+: (executed i s).bus := by
  cases i <;> simp [executed, entered, returned]

/-! ### A step that is no timer entry -/

/-- The opcode fetch is the first request of the state the execute phase begins in. -/
theorem Fetched.extends_bus {s u : State} {i : Instr} (h : Fetched s i u) : s.bus ++ [.read s.pc] <+: u.bus := by
  obtain ⟨-, -, ⟨-, rfl⟩ | ⟨-, -, rfl⟩⟩ := h
  · simp [opcodeFetched]
  · simp [operandFetched, opcodeFetched]

/-- A step in which the timer is not due sends the opcode fetch first (R123). -/
theorem step_extends_bus_of_not_due {s t : State} (h : step s = .next t) (hd : ¬ timerDue s) :
    s.bus ++ [.read s.pc] <+: t.bus := by
  obtain ⟨-, ⟨hdue, -⟩ | ⟨-, i, u, hf, -, rfl⟩⟩ := step_next_cases h
  · exact absurd hdue hd
  · exact hf.extends_bus.trans (executed_extends_bus i u)

/-- An entry sends a write first (R205), so a step in which the timer is not due is none. -/
theorem not_entered_of_not_due {kind : IntKind} {s t : State} (h : step s = .next t) (hd : ¬ timerDue s) :
    ¬ Entered kind s t := by
  rintro ⟨ht, -, -⟩
  have hbus : t.bus = s.bus ++ entryRequests s := congrArg State.bus ht
  have hext := step_extends_bus_of_not_due h hd
  simp [hbus, entryRequests] at hext

/-! ### The entry -/

/-- The frame is on the stack: its six cells are distinct (R205). -/
theorem frameHolds_frameWrites {s : State} (h : s.cfg.wf) : FrameHolds s (frameWrites s) := by
  have h6 := h.1
  have hn := memorySize_toNat h
  rw [frameWrites_eq h]
  refine ⟨?_, ?_, ?_, ?_, ?_, ?_⟩ <;>
    simp (disch := omega) only [Memory.read_write_same, Memory.read_write_other]

/-- An entry leaves every cell outside the six at the top of the array. -/
theorem read_frameWrites_other {s : State} (h : s.cfg.wf) {a : Nat}
    (ha : (a : Int) < s.cfg.memorySize.toInt - 6 ∨ s.cfg.memorySize.toInt ≤ a) :
    (frameWrites s).read a = s.mem.read a := by
  have h6 := h.1
  have hn := memorySize_toNat h
  rw [frameWrites_eq h]
  simp (disch := omega) only [Memory.read_write_other]

/-- What an entry leaves in a configuration that meets R9 is an entry as the statements say it. -/
theorem entered_spec (kind : IntKind) {s : State} (h : s.cfg.wf) : Entered kind s (entered kind s) :=
  ⟨by cases kind <;> rfl, frameHolds_frameWrites h, fun _ => read_frameWrites_other h⟩

/-! ### Counting up to the period -/

/-- Interrupts are enabled in a configuration of period `k` that meets R9, and the timer stands at `n`. -/
structure Counting (k n : Nat) (s : State) : Prop where
  wf : s.cfg.wf
  period : s.cfg.timeConstraint.toInt = k
  timer : s.timer.toInt = n
  enabled : s.ie = true

/-- The timer is due once it stands at the period or past it. -/
theorem Counting.timerDue_iff {k n : Nat} {s : State} (h : Counting k n s) : timerDue s ↔ k ≤ n := by
  simp [timerDue, h.enabled, h.period, h.timer]

/-- Below the period the count does not leave the range of a cell. -/
theorem Counting.toInt_timer_succ {k n : Nat} {s : State} (h : Counting k n s) (hn : n < k) :
    (s.timer + 1).toInt = (n + 1 : Nat) := by
  have hk := h.period ▸ s.cfg.timeConstraint.toInt_lt
  rw [BitVec.toInt_add, h.timer, show (1 : Word).toInt = 1 from rfl, Int.bmod_eq_of_le] <;> omega

/-- Below the period a step that does not execute `Int` counts one more (R122). -/
theorem Counting.succ {k n : Nat} {s t : State} (h : Counting k n s) (hn : n < k) (hop : opcodeCell s ≠ 29)
    (hs : step s = .next t) : Counting k (n + 1) t := by
  obtain ⟨-, ⟨hdue, -⟩ | ⟨-, i, u, hf, -, rfl⟩⟩ := step_next_cases hs
  · exact absurd (h.timerDue_iff.1 hdue) (by omega)
  obtain ⟨-, -, -, -, -, -, hie, -, -, -, -, -, -, hcfg, -, htimer⟩ := hf.same
  rw [if_pos h.enabled] at htimer
  have hi : i ≠ .int := by
    rintro rfl
    exact hop hf.2.1.symm
  constructor
  · rw [executed_cfg, hcfg]; exact h.wf
  · rw [executed_cfg, hcfg]; exact h.period
  · rw [executed_timer, htimer]; exact h.toInt_timer_succ hn
  · exact executed_ie u hi (hie.trans h.enabled)

/-- Along a run of at most `k` such steps from a cleared timer the timer stands at the number of steps taken. -/
theorem counting_of_run {k : Nat} {run : Nat → State} (h0 : Counting k 0 (run 0))
    (hstep : ∀ j < k, step (run j) = .next (run (j + 1))) (hop : ∀ j < k, opcodeCell (run j) ≠ 29) :
    ∀ j ≤ k, Counting k j (run j) := by
  intro j hj
  induction j with
  | zero => exact h0
  | succ j ih => exact (ih (by omega)).succ hj (hop j hj) (hstep j hj)

end Sys2Proof.Machine

open Sys2Proof Sys2Proof.Machine

/-- Settles O47: the timer stands at `j` after `j` steps, so it is due after `k` steps and not before; and it is never
due while interrupts are disabled. -/
theorem timerFiresEveryKInstructions : Obligations.TimerFiresEveryKInstructions := by
  constructor
  · intro run k hwf hk _ htimer hie hstep hop hrun
    have hcount := counting_of_run ⟨hwf, hk, by rw [htimer]; rfl, hie⟩ hstep hop
    refine ⟨fun j hj => (hcount j hj).enabled, fun j hj => ?_, entered .timer (run k), ?_, ?_⟩
    · exact not_entered_of_not_due (hstep j hj) ((hcount j hj.le).timerDue_iff.not.2 (by omega))
    · rw [step_due hrun ((hcount k le_rfl).timerDue_iff.2 le_rfl)]
      exact interruptEntry_of_wf .timer (hcount k le_rfl).wf
    · exact entered_spec .timer (hcount k le_rfl).wf
  · intro s t hie hs
    exact not_entered_of_not_due hs (by simp [hie])

end

section
/-! PROOFS. The encoding (spec 30_encoding.md): decoding and encoding agree (R100 to R106), and the opcode alone fixes
the length (R104). -/

namespace Sys2Proof

/-- Decoding gives an instruction back from its cells, with the cells after it. -/
theorem decode_encode_append (i : Instr) (rest : List Word) : decode (encode i ++ rest) = .ok (i, rest) := by
  cases hi : operandOf i with
  | none => simp [encode, hi, decode, decodeOpcode_opcodeOf_zero hi]
  | some v =>
    obtain ⟨mk, hmk, rfl⟩ := decodeOpcode_opcodeOf_one hi
    simp [encode, hi, decode, hmk]

/-- The cells decode to an instruction exactly where they begin with its encoding. -/
theorem decode_eq_ok_iff {cells rest : List Word} {i : Instr} :
    decode cells = .ok (i, rest) ↔ cells = encode i ++ rest := by
  constructor
  · exact decode_eq_ok
  · rintro rfl
    exact decode_encode_append i rest

end Sys2Proof

open Sys2Proof Sys2Proof.Machine Sys2Proof.Claims

/-- Settles O1: the opcode map inverts the encoder, and a list that decodes is an encoding and the rest. -/
theorem decodeAndEncodeAgree : Obligations.DecodeAndEncodeAgree :=
  fun _ _ _ => decode_eq_ok_iff

/-- Settles O2: closed facts, evaluated by the decoder. -/
theorem tabledCellsDecode : Obligations.TabledCellsDecode := by
  unfold Obligations.TabledCellsDecode
  decide

/-- Settles O3, by cases on the instruction: the map's row says the format. -/
theorem opcodeFixesLength : Obligations.OpcodeFixesLength := by
  intro i
  constructor
  · cases i <;> simp [encode, operandOf, opcodeOf, operandOpcodes]
  · cases i <;> simp [encode, operandOf, opcodeOf, plainOpcodes]

end

section
/-! PROOFS. The state in which the execute phase begins (`Claims.begun`), field by field, and the whole step from it:
the one inversion that the statements about all steps cite. -/

namespace Sys2Proof.Machine

open Sys2Proof.Claims

/-! ### The state in which the execute phase begins -/

section
variable (i : Instr) (s : State)

@[simp] theorem begun_pc : (begun i s).pc = s.pc := by unfold begun; split <;> rfl
@[simp] theorem begun_sp : (begun i s).sp = s.sp := by unfold begun; split <;> rfl
@[simp] theorem begun_mode : (begun i s).mode = s.mode := by unfold begun; split <;> rfl
@[simp] theorem begun_ie : (begun i s).ie = s.ie := by unfold begun; split <;> rfl
@[simp] theorem begun_handler : (begun i s).handler = s.handler := by unfold begun; split <;> rfl
@[simp] theorem begun_run : (begun i s).run = s.run := by unfold begun; split <;> rfl
@[simp] theorem begun_mem : (begun i s).mem = s.mem := by unfold begun; split <;> rfl
@[simp] theorem begun_console : (begun i s).console = s.console := by unfold begun; split <;> rfl
@[simp] theorem begun_diagnostic : (begun i s).diagnostic = s.diagnostic := by unfold begun; split <;> rfl
@[simp] theorem begun_cfg : (begun i s).cfg = s.cfg := by unfold begun; split <;> rfl
@[simp] theorem begun_timer : (begun i s).timer = if s.ie = true then s.timer + 1 else s.timer := by
  unfold begun; split <;> rfl

end

/-- The requests of the fetch of `i` (R87): its opcode cell, and its operand cell where it has one. -/
def fetchRequests (i : Instr) (s : State) : List BusRequest :=
  if operandOf i = none then [.read s.pc] else [.read s.pc, .read (s.pc + 1)]

theorem begun_bus (i : Instr) (s : State) : (begun i s).bus = s.bus ++ fetchRequests i s := by
  unfold begun fetchRequests; split <;> rfl

/-- The fetch and the timer phase change nothing that decides what may be accessed. -/
theorem accessible_begun {i : Instr} {s : State} {a : Word} : accessible (begun i s) a ↔ accessible s a :=
  accessible_congr (begun_mode i s) (begun_cfg i s) a

/-! ### The step -/

/-- The fetched instruction is the one placed at `PC`, and its execute phase begins in `begun`. -/
theorem Fetched.placed {s u : State} {i : Instr} (h : Fetched s i u) (hr : s.run = .running) (hd : ¬ timerDue s) :
    Placed i s ∧ u = begun i s := by
  obtain ⟨hacc, hop, ⟨hi, rfl⟩ | ⟨hacc2, hi, rfl⟩⟩ := h
  · refine ⟨⟨⟨hr, hd, hacc⟩, hop.symm, fun v hv => by simp [hi] at hv⟩, ?_⟩
    rw [opcodeFetched_timerTick, begun, if_pos hi]
  · refine ⟨⟨⟨hr, hd, hacc⟩, hop.symm, fun v hv => ⟨Option.some.inj (hi.symm.trans hv), hacc2⟩⟩, ?_⟩
    rw [operandFetched_timerTick, begun, if_neg (by simp [hi])]

/-- All that a step that answers can have done, in the words of the statements: a timer entry, or the instruction
placed at `PC` executed. -/
theorem step_next_placed {s t : State} (h : step s = .next t) :
    s.run = .running ∧
    (timerDue s ∧ t = entered .timer s ∨
     ¬ timerDue s ∧ ∃ i, Placed i s ∧ (∀ a ∈ accesses i (begun i s), accessible s a) ∧ t = executed i (begun i s)) := by
  obtain ⟨hr, ⟨hd, ht⟩ | ⟨hd, i, u, hf, hacc, ht⟩⟩ := step_next_cases h
  · exact ⟨hr, .inl ⟨hd, ht⟩⟩
  · obtain ⟨hp, rfl⟩ := hf.placed hr hd
    exact ⟨hr, .inr ⟨hd, i, hp, fun a ha => accessible_begun.1 (hacc a ha), ht⟩⟩

/-- The cell at `PC` of a placed instruction is its opcode. -/
theorem opcodeCell_of_placed {i : Instr} {s : State} (h : Placed i s) : opcodeCell s = opcodeOf i := h.2.1

/-- A placed instruction is what the two cells at `PC` decode to. -/
theorem decode_of_placed {i : Instr} {s : State} (h : Placed i s) :
    ∃ rest, decode [opcodeCell s, operandCell s] = .ok (i, rest) := by
  obtain ⟨-, hop, hopnd⟩ := h
  cases hi : operandOf i with
  | none => exact ⟨[operandCell s], decode_eq_ok_iff.2 (by simp [encode, hi, hop])⟩
  | some v => exact ⟨[], decode_eq_ok_iff.2 (by simp [encode, hi, hop, (hopnd v hi).1])⟩

/-! ### What an instruction does with memory -/

/-- All that an instruction that completes can do with memory: read the cells it accesses, write the one cell it
accesses, take an entry, or end the run. -/
theorem memory_use_cases (i : Instr) (s : State) :
    ((executed i s).run = s.run ∧ (executed i s).mem = s.mem ∧ dataRequests i s = (accesses i s).map .read) ∨
    (∃ a v, (executed i s).run = s.run ∧ (executed i s).mem = s.mem.write a.toNat v ∧ dataRequests i s = [.write a v] ∧
      a ∈ accesses i s ∧ storedCells i s = [a]) ∨
    i = .int ∨ i = .halt := by
  cases i
  case store a => exact .inr (.inl ⟨a, s.ac, rfl, rfl, rfl, by simp [accesses], rfl⟩)
  case call a => exact .inr (.inl ⟨s.sp - 1, s.pc + 2, rfl, rfl, rfl, by simp [accesses], rfl⟩)
  case push => exact .inr (.inl ⟨s.sp - 1, s.ac, rfl, rfl, rfl, by simp [accesses], rfl⟩)
  case int => exact .inr (.inr (.inl rfl))
  case halt => exact .inr (.inr (.inr rfl))
  case iret => exact .inl ⟨rfl, rfl, by simp [dataRequests, accesses, List.range_succ]⟩
  all_goals exact .inl ⟨rfl, rfl, rfl⟩

/-- All that an instruction can do to the cells: nothing, the one store it names, under the check of that address, or
the six writes of an entry. -/
theorem executed_mem_cases (i : Instr) (s : State) :
    (executed i s).mem = s.mem ∨
    (∃ a v, storedCells i s = [a] ∧ a ∈ accesses i s ∧ (executed i s).mem = s.mem.write a.toNat v) ∨
    (i = .int ∧ (executed i s).mem = frameWrites s) := by
  obtain ⟨-, hm, -⟩ | ⟨a, v, -, hm, -, hacc, hst⟩ | rfl | rfl := memory_use_cases i s
  · exact .inl hm
  · exact .inr (.inl ⟨a, v, hst, hacc, hm⟩)
  · exact .inr (.inr ⟨rfl, rfl⟩)
  · exact .inl rfl

end Sys2Proof.Machine

end

section
/-! PROOFS. The invariant of every constructed machine (R9, R29, R35, R37): reset and construction meet it, and every
step keeps it. -/

namespace Sys2Proof.Machine

open Sys2Proof.Claims

/-- Below another cell value there is room for one more. -/
theorem toInt_add_one_of_lt {a b : Word} (h : a.toInt < b.toInt) : (a + 1).toInt = a.toInt + 1 := by
  have hb := b.toInt_lt
  have ha := a.le_toInt
  rw [BitVec.toInt_add, show (1 : Word).toInt = 1 from rfl, Int.bmod_eq_of_le] <;> omega

/-- The timer phase that does not fire keeps the timer inside its range: it counts only below `timeConstraint`. -/
theorem timerLegal_begun (i : Instr) {s : State} (h : timerLegal s) (hd : ¬ timerDue s) : timerLegal (begun i s) := by
  obtain ⟨hlo, hhi⟩ := h
  simp only [timerLegal, begun_timer, begun_cfg]
  split
  · next hie =>
    have hlt : s.timer.toInt < s.cfg.timeConstraint.toInt := by
      by_contra hge
      exact hd ⟨hie, by omega⟩
    rw [toInt_add_one_of_lt hlt]
    omega
  · exact ⟨hlo, hhi⟩

/-- The fetch and the timer phase keep the invariant. -/
theorem inv_begun (i : Instr) {s : State} (h : s.Inv) (hd : ¬ timerDue s) : (begun i s).Inv where
  cfg := by rw [begun_cfg]; exact h.cfg
  mem := by rw [begun_mem, begun_cfg]; exact h.mem
  control := by simpa only [controlLegal, begun_mode, begun_ie, begun_handler] using h.control
  timer := timerLegal_begun i h.timer hd

/-- The entry by a due timer keeps the invariant: the six writes are in the array, and the timer starts again at 0. -/
theorem inv_entered {s : State} (h : s.Inv) : (entered .timer s).Inv where
  cfg := h.cfg
  mem := wf_frameWrites h.cfg h.mem
  control := .inr ⟨rfl, rfl, nofun⟩
  timer := ⟨le_rfl, id⟩

/-- Every instruction leaves memory canonical: each cell it writes is in the array. -/
theorem wf_executed_mem {i : Instr} {s : State} (hw : s.cfg.wf) (hm : s.mem.wf s.cfg.memorySize.toInt)
    (hacc : ∀ a ∈ accesses i s, accessible s a) : (executed i s).mem.wf s.cfg.memorySize.toInt := by
  obtain h | ⟨a, v, -, ha, h⟩ | ⟨-, h⟩ := executed_mem_cases i s
  · rw [h]; exact hm
  · have hb := (hacc a ha).2
    rw [h]
    exact Memory.wf_write hm (by rw [toNat_of_inBounds hb]; exact hb.2)
  · rw [h]; exact wf_frameWrites hw hm

/-- Every instruction leaves the control state in one of its two combinations: `Int` and `IRet` set all three fields,
and the others set none. -/
theorem controlLegal_executed (i : Instr) {s : State} (h : controlLegal s) : controlLegal (executed i s) := by
  cases i
  case int => exact .inr ⟨rfl, rfl, nofun⟩
  case iret => exact .inl ⟨rfl, rfl, rfl⟩
  all_goals exact h

/-- An instruction that completes keeps the invariant. -/
theorem inv_executed {i : Instr} {s : State} (h : s.Inv) (hacc : ∀ a ∈ accesses i s, accessible s a) :
    (executed i s).Inv where
  cfg := by rw [executed_cfg]; exact h.cfg
  mem := by rw [executed_cfg]; exact wf_executed_mem h.cfg h.mem hacc
  control := controlLegal_executed i h.control
  timer := by simpa only [timerLegal, executed_timer, executed_cfg] using h.timer

/-- A machine that is constructed meets the invariant: its memory is the canonical form of the image. -/
theorem inv_boot {c : Config} {image : List Word} (hc : c.wf) (hi : imageWf c image) :
    ({ State.reset with pc := c.resetPc, sp := c.resetSp, mem := Memory.ofImageAt 0 image, cfg := c } : State).Inv where
  cfg := hc
  mem := hi ▸ Memory.wf_ofImage image
  control := .inl ⟨rfl, rfl, rfl⟩
  timer := ⟨le_rfl, id⟩

end Sys2Proof.Machine

open Sys2Proof Sys2Proof.Machine

/-- Settles O36: a step is a timer entry, or the timer phase and the fetch followed by an instruction that completes;
each keeps the invariant. -/
theorem everyStepKeepsTheInvariant : Obligations.EveryStepKeepsTheInvariant := by
  intro s t h hs
  obtain ⟨-, ⟨-, rfl⟩ | ⟨hd, i, -, hacc, rfl⟩⟩ := step_next_placed hs
  · exact inv_entered h
  · exact inv_executed (inv_begun i h hd) fun a ha => accessible_begun.2 (hacc a ha)

/-- Settles O37: the reset state is the reference configuration with an empty memory, in User mode. -/
theorem resetMeetsTheInvariant : Obligations.ResetMeetsTheInvariant where
  cfg := by decide
  mem := ⟨.nil, nofun⟩
  control := .inl ⟨rfl, rfl, rfl⟩
  timer := ⟨le_rfl, by decide⟩

/-- Settles O34: `State.reset` field by field. -/
theorem resetValues : Obligations.ResetValues := by
  refine ⟨rfl, rfl, rfl, rfl, rfl, rfl, rfl, rfl, rfl, rfl, rfl, rfl, rfl, rfl, rfl, fun _ => rfl⟩

/-- Settles O35: `boot` answers exactly where both checks pass, and the canonical memory reads as the image. -/
theorem constructionLoadsTheImage : Obligations.ConstructionLoadsTheImage := by
  intro c image
  refine ⟨fun hc hi => ⟨_, if_pos ⟨hc, hi⟩, inv_boot hc hi, ?_⟩, fun h => if_neg h⟩
  refine ⟨rfl, rfl, rfl, rfl, rfl, rfl, rfl, rfl, rfl, rfl, rfl, rfl, rfl, rfl, rfl, fun a v hv => ?_⟩
  have hread := Memory.read_ofImageAt (b := 0) hv
  rwa [Nat.zero_add] at hread

end

section
/-! PROOFS. What every step and every instruction leaves alone (spec 10_state.md, R22 to R39; 20_memory.md, R87;
60_exceptions.md, R216, R225, R227): each field of `executed` by cases on the instruction, then the step from there. -/

namespace Sys2Proof.Machine

open Sys2Proof.Claims

/-! ### Opcodes -/

theorem opcodeOf_eq_halt {i : Instr} : opcodeOf i = 50 ↔ i = .halt := by cases i <;> simp [opcodeOf]
theorem opcodeOf_eq_int {i : Instr} : opcodeOf i = 29 ↔ i = .int := by cases i <;> simp [opcodeOf]
theorem opcodeOf_eq_iret {i : Instr} : opcodeOf i = 30 ↔ i = .iret := by cases i <;> simp [opcodeOf]

/-! ### Which opcodes change which register (R22 to R32, R39) -/

section
variable {i : Instr} {s : State}

theorem executed_sp (h : (opcodeOf i).toInt ∉ [18, 23, 24, 27, 28, 29, 30]) : (executed i s).sp = s.sp := by
  cases i <;> simp [opcodeOf, executed] at h ⊢

theorem executed_ir (h : (opcodeOf i).toInt ∉ [30]) : (executed i s).ir = s.ir := by
  cases i <;> simp [opcodeOf, executed, entered] at h ⊢

theorem executed_ac (h : (opcodeOf i).toInt ∉ [1, 2, 3, 4, 5, 6, 8, 10, 11, 12, 13, 15, 17, 19, 28, 30]) :
    (executed i s).ac = s.ac := by
  cases i <;> simp [opcodeOf, executed, entered] at h ⊢

theorem executed_x (h : (opcodeOf i).toInt ∉ [14, 25, 26, 30]) : (executed i s).x = s.x := by
  cases i <;> simp [opcodeOf, executed, entered] at h ⊢

theorem executed_y (h : (opcodeOf i).toInt ∉ [16, 30]) : (executed i s).y = s.y := by
  cases i <;> simp [opcodeOf, executed, entered] at h ⊢

theorem executed_control (h : (opcodeOf i).toInt ∉ [29, 30]) :
    (executed i s).mode = s.mode ∧ (executed i s).ie = s.ie ∧ (executed i s).handler = s.handler := by
  cases i <;> simp [opcodeOf, executed] at h ⊢

theorem executed_streams (h : (opcodeOf i).toInt ∉ [9]) :
    (executed i s).console = s.console ∧ (executed i s).diagnostic = s.diagnostic := by
  cases i <;> simp [opcodeOf, executed, entered, returned] at h ⊢

theorem executed_drawCount (h : (opcodeOf i).toInt ∉ [8]) : (executed i s).drawCount = s.drawCount := by
  cases i <;> simp [opcodeOf, executed, entered, returned] at h ⊢

end

/-- `End` halts the machine, and no other instruction touches `run` (R32, R187). -/
theorem executed_run (i : Instr) (s : State) : (executed i s).run = if i = .halt then .halted else s.run := by
  cases i <;> rfl

/-- `Int` enters Kernel mode, `IRet` leaves it, and no other instruction touches the mode (R225). -/
theorem executed_mode (i : Instr) (s : State) :
    (executed i s).mode = if i = .int then .kernel else if i = .iret then .user else s.mode := by
  cases i <;> rfl

/-! ### Memory -/

/-- An instruction changes no cell but those it stores to. -/
theorem executed_mem_other {i : Instr} {s : State} {a : Nat} (ha : ∀ w ∈ storedCells i s, a ≠ w.toNat) :
    (executed i s).mem.read a = s.mem.read a := by
  obtain h | ⟨b, v, hb, -, h⟩ | ⟨rfl, h⟩ := executed_mem_cases i s
  · rw [h]
  · rw [h, Memory.read_write_other v (ha b (by simp [hb]))]
  · simp only [storedCells, List.forall_mem_cons] at ha
    obtain ⟨h1, h2, h3, h4, h5, h6, -⟩ := ha
    rw [h, frameWrites, Memory.read_write_other _ h6, Memory.read_write_other _ h5, Memory.read_write_other _ h4,
      Memory.read_write_other _ h3, Memory.read_write_other _ h2, Memory.read_write_other _ h1]

/-- In User mode an address that may be accessed is below `USER_LIMIT` (R62). -/
theorem toNat_lt_userLimit {s : State} {a : Word} (hm : s.mode = .user) (ha : accessible s a) :
    (a.toNat : Int) < s.cfg.userLimit.toInt := by
  obtain ⟨hperm, hb⟩ := ha
  rw [toNat_of_inBounds hb]
  by_contra hge
  exact hperm ⟨hm, by omega⟩

/-! ### Requests -/

/-- The requests of the fetch begin with that of the opcode. -/
theorem fetchRequests_ne_nil (i : Instr) (s : State) : fetchRequests i s ≠ [] := by
  unfold fetchRequests; split <;> simp

/-- The bus trace grows by the data requests of the instruction (R87). -/
theorem executed_bus (i : Instr) (s : State) : (executed i s).bus = s.bus ++ dataRequests i s := by
  cases i <;> simp [executed, dataRequests, returned, entered, frameRequests, entryRequests]

/-- The streams grow only (R152). -/
theorem executed_extends_streams (i : Instr) (s : State) :
    s.console <+: (executed i s).console ∧ s.diagnostic <+: (executed i s).diagnostic := by
  cases i
  case put port => exact ⟨List.prefix_append .., List.prefix_append ..⟩
  all_goals exact ⟨List.prefix_rfl, List.prefix_rfl⟩

end Sys2Proof.Machine

open Sys2Proof Sys2Proof.Machine Sys2Proof.Claims

/-- Settles O33: of all instructions only `End` writes `run`, and an entry does not. -/
theorem onlyEndHalts : Obligations.OnlyEndHalts := by
  intro s t hs
  obtain ⟨hr, ⟨hd, rfl⟩ | ⟨hd, i, hp, -, rfl⟩⟩ := step_next_placed hs
  · exact .inr ⟨hr, .inl hd⟩
  · rw [executed_run, begun_run, hr, opcodeCell_of_placed hp, opcodeOf_eq_halt]
    by_cases hi : i = .halt
    · exact .inl ⟨if_pos hi, hd, hi⟩
    · exact .inr ⟨if_neg hi, .inr (opcodeOf_eq_halt.not.2 hi)⟩

/-- Settles O38: the mode an instruction leaves is known from `Int`, `IRet` and the mode before it. -/
theorem modeChangesOnlyByEntryAndReturn : Obligations.ModeChangesOnlyByEntryAndReturn := by
  refine ⟨rfl, fun s t hs => ?_⟩
  obtain ⟨-, ⟨hd, rfl⟩ | ⟨hd, i, hp, -, rfl⟩⟩ := step_next_placed hs
  · exact ⟨fun _ _ => .inl hd, fun _ h => nomatch h⟩
  · rw [executed_mode, begun_mode, opcodeCell_of_placed hp, opcodeOf_eq_int, opcodeOf_eq_iret]
    by_cases hint : i = .int
    · exact ⟨fun _ _ => .inr hint, fun _ ht => by simp [hint] at ht⟩
    by_cases hret : i = .iret
    · exact ⟨fun _ ht => by simp [hret] at ht, fun _ _ => ⟨hd, hret⟩⟩
    rw [if_neg hint, if_neg hret]
    exact ⟨fun hm ht => (nomatch hm.symm.trans ht), fun hm ht => (nomatch hm.symm.trans ht)⟩

/-- Settles O39: the fields of `executed`, one lemma each. -/
theorem registersChangeByTheirOpcodesOnly : Obligations.RegistersChangeByTheirOpcodesOnly := by
  intro i s t h
  obtain ⟨-, rfl⟩ := exec_eq_next h
  refine ⟨executed_sp, executed_ir, executed_ac, executed_x, executed_y, executed_control, fun hh => ?_,
    executed_streams, executed_drawCount, executed_timer i s, executed_cfg i s⟩
  rw [executed_run, if_neg]
  rintro rfl
  exact hh (by decide)

/-- Settles O40: an instruction writes nothing, the one cell it names, or the six of the frame. -/
theorem memoryChangesAtStoredCellsOnly : Obligations.MemoryChangesAtStoredCellsOnly := by
  intro i s t h a ha
  obtain ⟨-, rfl⟩ := exec_eq_next h
  exact executed_mem_other ha

/-- Settles O41: the requests of the fetch, then those of the instruction placed at `PC`. -/
theorem busTraceOfAStep : Obligations.BusTraceOfAStep := by
  intro s t hs
  obtain ⟨-, ⟨hd, rfl⟩ | ⟨hd, i, hp, -, rfl⟩⟩ := step_next_placed hs
  · exact ⟨fun _ => rfl, fun h => absurd hd h⟩
  · refine ⟨fun h => absurd h hd, fun _ => ?_⟩
    obtain ⟨rest, hdec⟩ := decode_of_placed hp
    refine ⟨i, rest, hdec, fun hi => ?_, fun hi => ?_⟩
    · rw [executed_bus, begun, if_pos hi]; rfl
    · rw [executed_bus, begun, if_neg hi]; rfl

/-- Settles O45: an entry adds six requests and an instruction at least its opcode fetch; neither shortens a stream. -/
theorem streamsGrowAndConfigurationStays : Obligations.StreamsGrowAndConfigurationStays := by
  intro s t hs
  obtain ⟨-, ⟨-, rfl⟩ | ⟨-, i, -, -, rfl⟩⟩ := step_next_placed hs
  · refine ⟨rfl, List.prefix_rfl, List.prefix_rfl, List.prefix_append .., ?_⟩
    simp [entered, frameRequests]
  · obtain ⟨hcon, hdia⟩ := executed_extends_streams i (begun i s)
    rw [begun_console] at hcon
    rw [begun_diagnostic] at hdia
    have hpos := List.length_pos_iff.2 (fetchRequests_ne_nil i s)
    refine ⟨by rw [executed_cfg, begun_cfg], hcon, hdia, ?_, ?_⟩
    · rw [executed_bus, begun_bus, List.append_assoc]
      exact List.prefix_append ..
    · simp only [executed_bus, begun_bus, List.length_append]
      omega

/-- Settles O46: no instruction writes the timer, so the timer phase alone decides what becomes of it. -/
theorem timerCountsWhileEnabled : Obligations.TimerCountsWhileEnabled := by
  intro s t hs
  obtain ⟨-, ⟨hd, rfl⟩ | ⟨hd, i, -, -, rfl⟩⟩ := step_next_placed hs
  · refine ⟨fun hie => ?_, fun _ h => absurd hd h, fun _ => rfl⟩
    exact absurd hd.1 (by simp [hie])
  · rw [executed_timer, begun_timer]
    exact ⟨fun hie => by simp [hie], fun hie _ => if_pos hie, fun h => absurd h hd⟩

/-- Settles O49: the one cell an instruction other than `Int` writes has passed the permission check. -/
theorem userModeLeavesSystemSpaceAlone : Obligations.UserModeLeavesSystemSpaceAlone := by
  intro s t hm hs hd hop a ha
  obtain ⟨-, ⟨hdue, -⟩ | ⟨-, i, hp, hacc, rfl⟩⟩ := step_next_placed hs
  · exact absurd hdue hd
  rw [← begun_mem i s]
  obtain h | ⟨b, v, -, hb, h⟩ | ⟨rfl, -⟩ := executed_mem_cases i (begun i s)
  · rw [h]
  · have hlt := toNat_lt_userLimit hm (hacc b hb)
    rw [h, Memory.read_write_other v (by omega)]
  · exact absurd (opcodeCell_of_placed hp) hop

end

section
/-! PROOFS. The Memory Service (spec 20_memory.md): every step agrees with it (R7, R67 to R70, R81), nothing is served
after `Terminate` (R69), and the wire tells the kinds of request apart (R71, R72). -/

namespace Sys2Proof.Machine

open Sys2Proof.Claims

/-! ### The requests of a step, served -/

/-- Reads of accessible cells are served, change nothing and are answered with the cells (R68). -/
theorem serveAll_reads_of_accessible {s : State} {l : List Word} (h : ∀ a ∈ l, accessible s a) :
    serveAll s.cfg.memorySize (l.map .read) ⟨s.mem, true⟩ = .ok (⟨s.mem, true⟩, l.map fun a => s.mem.read a.toNat) :=
  serveAll_reads s.mem fun a ha => (h a ha).2

/-- The data requests of an instruction that completes are served, and leave the service as the instruction does. -/
theorem serveAll_dataRequests {i : Instr} {s : State} (hr : s.run = .running) (hw : s.cfg.wf)
    (hacc : ∀ a ∈ accesses i s, accessible s a) :
    ∃ replies, serveAll s.cfg.memorySize (dataRequests i s) ⟨s.mem, true⟩ = .ok ((executed i s).service, replies) := by
  obtain ⟨hrun, hm, hreq⟩ | ⟨a, v, hrun, hm, hreq, ha, -⟩ | rfl | rfl := memory_use_cases i s
  · rw [hreq, service_running (hrun.trans hr), hm]
    exact ⟨_, serveAll_reads_of_accessible hacc⟩
  · rw [hreq, service_running (hrun.trans hr), hm]
    exact ⟨_, serveAll_write s.mem (hacc a ha).2⟩
  · rw [service_running (s := executed .int s) hr]
    exact ⟨_, serveAll_frame hw⟩
  · exact ⟨_, rfl⟩

/-- The fetch of a placed instruction is served, and its first reply is the opcode. -/
theorem serveAll_fetchRequests {i : Instr} {s : State} (h : Placed i s) :
    ∃ replies, serveAll s.cfg.memorySize (fetchRequests i s) ⟨s.mem, true⟩ =
      .ok (⟨s.mem, true⟩, opcodeCell s :: replies) := by
  obtain ⟨⟨-, -, hpc⟩, -, hopnd⟩ := h
  unfold fetchRequests
  cases hi : operandOf i with
  | none => exact ⟨_, serveAll_reads_of_accessible (l := [s.pc]) (by simpa using hpc)⟩
  | some v =>
    exact ⟨_, serveAll_reads_of_accessible (l := [s.pc, s.pc + 1]) (by simpa using ⟨hpc, (hopnd v hi).2⟩)⟩

/-- Two lists that are served, one after the other. -/
theorem serveAll_append_ok {size : Word} {a b : List BusRequest} {v v1 v2 : Service} {r1 r2 : List Word}
    (h1 : serveAll size a v = .ok (v1, r1)) (h2 : serveAll size b v1 = .ok (v2, r2)) :
    serveAll size (a ++ b) v = .ok (v2, r1 ++ r2) := by
  simp only [serveAll_append, h1, h2]

/-! ### The lifetime of the service -/

/-- Requests that are served begin with one that is served. -/
theorem serveAll_cons_eq_ok {size : Word} {r : BusRequest} {rs : List BusRequest} {v w : Service} {replies : List Word}
    (h : serveAll size (r :: rs) v = .ok (w, replies)) :
    ∃ v1 reply replies1, serve size r v = .ok (v1, reply) ∧ serveAll size rs v1 = .ok (w, replies1) := by
  simp only [serveAll] at h
  split at h
  · cases h
  · next v1 reply h1 =>
    split at h
    · cases h
    · next v2 replies1 h2 => cases h; exact ⟨v1, reply, replies1, h1, h2⟩

/-- An ended service serves no request, so whatever it serves is nothing. -/
theorem serveAll_ended {size : Word} {rs : List BusRequest} {v w : Service} {replies : List Word}
    (hv : v.accepting = false) (h : serveAll size rs v = .ok (w, replies)) : rs = [] ∧ w = v := by
  cases rs with
  | nil => cases h; exact ⟨rfl, rfl⟩
  | cons r rs =>
    obtain ⟨v1, reply, replies1, h1, -⟩ := serveAll_cons_eq_ok h
    have hacc := (serve_eq_ok h1).1
    simp [hv] at hacc

/-- In requests that are served `Terminate` comes last, and it ends the service. -/
theorem serveAll_terminate {size : Word} {before after : List BusRequest} {v w : Service} {replies : List Word}
    (h : serveAll size (before ++ .terminate :: after) v = .ok (w, replies)) : after = [] ∧ w.accepting = false := by
  induction before generalizing v replies with
  | nil =>
    obtain ⟨v1, reply, replies1, h1, h2⟩ := serveAll_cons_eq_ok h
    obtain ⟨-, ⟨-, rfl, -⟩ | ⟨hne, -⟩⟩ := serve_eq_ok h1
    · obtain ⟨rfl, rfl⟩ := serveAll_ended rfl h2
      exact ⟨rfl, rfl⟩
    · exact absurd rfl hne
  | cons r rs ih =>
    obtain ⟨v1, reply, replies1, -, h2⟩ := serveAll_cons_eq_ok h
    exact ih h2

/-- Without a `Terminate` the service goes on as before. -/
theorem serveAll_accepting {size : Word} {rs : List BusRequest} {v w : Service} {replies : List Word}
    (hrs : .terminate ∉ rs) (h : serveAll size rs v = .ok (w, replies)) : w.accepting = v.accepting := by
  induction rs generalizing v replies with
  | nil => cases h; rfl
  | cons r rs ih =>
    obtain ⟨hr, hrest⟩ := List.ne_and_not_mem_of_not_mem_cons hrs
    obtain ⟨v1, reply, replies1, h1, h2⟩ := serveAll_cons_eq_ok h
    obtain ⟨hv, ⟨rfl, -, -⟩ | ⟨-, hv1⟩⟩ := serve_eq_ok h1
    · exact absurd rfl hr
    · rw [ih hrest h2, hv1, hv]

/-! ### The wire -/

/-- The first integer of a request names its kind. -/
theorem requestKind_wire {r : BusRequest} (hr : ∀ a, r = .read a → 0 ≤ a.toInt) {first : Word}
    (h : r.wire.head? = some first) : requestKind first = some r.kind := by
  cases r with
  | read a => cases h; exact requestKind_of_nonneg (hr _ rfl)
  | write a v => cases h; exact requestKind_writeSentinel
  | terminate => cases h; exact requestKind_terminateSentinel

/-- The receiver takes back the request that was sent, and leaves the integers after it. -/
theorem receive_wire {r : BusRequest} (hr : ∀ a, r = .read a → 0 ≤ a.toInt) (rest : List Word) :
    receive (r.wire ++ rest) = some (r, rest) := by
  cases r with
  | read a => simp [BusRequest.wire, receive, requestKind_of_nonneg (hr a rfl)]
  | write a v => simp [BusRequest.wire, receive, requestKind_writeSentinel]
  | terminate => simp [BusRequest.wire, receive, requestKind_terminateSentinel]

/-- Every request has a first integer on the wire. -/
theorem wire_head (r : BusRequest) : ∃ first, r.wire.head? = some first := by
  cases r <;> exact ⟨_, rfl⟩

end Sys2Proof.Machine

open Sys2Proof Sys2Proof.Machine Sys2Proof.Claims

/-- Settles O42: the requests of the fetch and then those of the instruction are served, and the service ends as the
machine's memory and `run` do. -/
theorem stepsAgreeWithTheMemoryService : Obligations.StepsAgreeWithTheMemoryService := by
  intro s t hw hs
  obtain ⟨hr, ⟨hd, rfl⟩ | ⟨hd, i, hp, hacc, rfl⟩⟩ := step_next_placed hs
  · refine ⟨frameRequests s, [], rfl, ?_, fun _ => rfl, fun h => absurd hd h⟩
    rw [service_running hr, service_running (s := entered .timer s) hr]
    exact serveAll_frame hw
  · obtain ⟨replies, hfetch⟩ := serveAll_fetchRequests hp
    obtain ⟨replies', hdata⟩ := serveAll_dataRequests (s := begun i s) ((begun_run i s).trans hr)
      (by rw [begun_cfg]; exact hw) fun a ha => accessible_begun.2 (hacc a ha)
    rw [begun_cfg, begun_mem] at hdata
    refine ⟨fetchRequests i s ++ dataRequests i (begun i s), opcodeCell s :: replies ++ replies', ?_, ?_,
      fun h => absurd h hd, fun _ => rfl⟩
    · rw [executed_bus, begun_bus, List.append_assoc]
    · rw [service_running hr]
      exact serveAll_append_ok hfetch hdata

/-- Settles O43, by induction on the requests: an accepting service stays one until `Terminate`, and an ended one
serves nothing more. -/
theorem nothingIsServedAfterTerminate : Obligations.NothingIsServedAfterTerminate := by
  refine fun size => ⟨fun _ => rfl, fun rs v w replies h => ⟨?_, fun hrs => serveAll_accepting hrs h⟩⟩
  rintro before after rfl
  obtain ⟨hafter, hw⟩ := serveAll_terminate h
  obtain ⟨cells, accepting⟩ := w
  cases hw
  exact ⟨hafter, rfl, fun r => serve_ended size r cells⟩

/-- Settles O44: the sentinels are negative and distinct, so the first integer names the kind and the receiver inverts
the wire; the claims about two requests follow from both. -/
theorem wireTellsRequestsApart : Obligations.WireTellsRequestsApart := by
  obtain ⟨hwrite, hterm, hne⟩ := sentinels
  refine ⟨⟨hwrite, hterm, hne.symm⟩, fun r hr => ⟨fun _ => requestKind_wire hr, receive_wire hr⟩, ?_⟩
  intro r q hr hq
  constructor
  · intro hhead
    obtain ⟨first, hfirst⟩ := wire_head r
    have hkind := (requestKind_wire hr hfirst).symm.trans (requestKind_wire hq (hhead ▸ hfirst))
    exact Option.some.inj hkind
  · intro hwire
    have hreq := (receive_wire hr []).symm.trans (hwire ▸ receive_wire hq [])
    exact congrArg Prod.fst (Option.some.inj hreq)

end

section
/-! PROOFS. Isolation (spec R73, R224): two machines in User mode that differ in system space only take the same step.
The step is the chain of the timer phase, the fetch and one meaning; each does the same in both machines. -/

namespace Sys2Proof.Machine

open Sys2Proof.Claims

/-! ### The words of the statement -/

/-- The support's relation is the one of the statements. -/
theorem below_iff_sameBelow {s t : State} : Below s t ↔ SameBelow s t := by
  constructor
  · rintro ⟨m, rfl, hm⟩
    exact ⟨rfl, hm⟩
  · rintro ⟨ht, hm⟩
    exact ⟨t.mem, ht, hm⟩

/-- Outcomes alike are the same outcome in the words of the statement. -/
theorem sameOutcome_of_alike {o p : Out State} (h : Alike Below o p) : SameOutcome o p := by
  obtain ⟨a, b, rfl, rfl, h⟩ | ⟨f, g, rfl, rfl, h⟩ := h
  · exact below_iff_sameBelow.1 h
  · cases f <;> cases g
    case fatal.fatal =>
      obtain ⟨hk, hi, hb⟩ := h
      exact ⟨hk, hi, below_iff_sameBelow.1 hb⟩
    case notRunning.notRunning => exact below_iff_sameBelow.1 h
    case fatal.notRunning => exact h
    case notRunning.fatal => exact h

/-! ### The meanings -/

theorem below_setAc {s t : State} (v : Word) (h : Below s t) : Below (setAc v s) (setAc v t) := by
  obtain ⟨m, rfl, hm⟩ := h
  exact ⟨m, rfl, hm⟩

theorem below_advance {s t : State} (n : Word) (h : Below s t) : Below (advance n s) (advance n t) := by
  obtain ⟨m, rfl, hm⟩ := h
  exact ⟨m, rfl, hm⟩

theorem below_transfer {s t : State} (a : Word) (h : Below s t) : Below (transfer a s) (transfer a t) := by
  obtain ⟨m, rfl, hm⟩ := h
  exact ⟨m, rfl, hm⟩

theorem below_timerTick {s t : State} (h : Below s t) : Below (timerTick s) (timerTick t) := by
  obtain ⟨m, rfl, hm⟩ := h
  rw [timerTick_eq, timerTick_eq]
  exact ⟨m, rfl, hm⟩

/-- A chain that ends in an update of the state. -/
theorem Alike.next {α : Type} {R : α → α → Prop} {o p : Out α} {f : α → State} (h : Alike R o p)
    (hf : ∀ a b, R a b → Below (f a) (f b)) :
    Alike Below (Sys2Proof.Machine.andThen o fun a => .next (f a))
      (Sys2Proof.Machine.andThen p fun a => .next (f a)) :=
  h.andThen fun a b hab => .inl ⟨f a, f b, rfl, rfl, hf a b hab⟩

/-- An instruction in User mode does the same in both machines: its addresses come from registers or were read alike. -/
theorem exec_alike (i : Instr) {s t : State} (hm : s.mode = .user) (h : Below s t) :
    Alike Below (exec i s) (exec i t) := by
  obtain ⟨m, rfl, hb⟩ := id h
  cases i
  case loadAddr a => exact loadAc_alike hm h a 2
  case loadIdxX a => exact loadAc_alike hm h (a + s.x) 2
  case loadIdxY a => exact loadAc_alike hm h (a + s.y) 2
  case loadSpX => exact loadAc_alike hm h (s.sp + s.x) 1
  case loadInd a =>
    rw [exec_loadInd, exec_loadInd]
    refine (memRead_alike hm h a).andThen ?_
    rintro ⟨v, s'⟩ ⟨_, t'⟩ ⟨rfl, hb', hm'⟩
    exact loadAc_alike hm' hb' v 2
  case store a => exact (memWrite_alike h a s.ac).next fun _ _ hst => below_advance 2 hst
  case call a => exact (push_alike h (s.pc + 2)).next fun _ _ hst => below_transfer a hst
  case push => exact (push_alike h s.ac).next fun _ _ hst => below_advance 1 hst
  case ret =>
    refine (pop_alike hm h).next ?_
    rintro ⟨v, s'⟩ ⟨_, t'⟩ ⟨rfl, hst, -⟩
    exact below_transfer v hst
  case pop =>
    refine (pop_alike hm h).next ?_
    rintro ⟨v, s'⟩ ⟨_, t'⟩ ⟨rfl, hst, -⟩
    exact below_advance 1 (below_setAc v hst)
  case int => exact interruptEntry_alike .trap h
  case iret => exact interruptReturn_alike hm h
  all_goals
    exact .inl ⟨_, _, exec_of_accesses_eq_nil rfl nofun, exec_of_accesses_eq_nil rfl nofun, m, rfl, hb⟩

/-! ### The step -/

/-- A step in User mode does the same in both machines. -/
theorem step_alike {s t : State} (hm : s.mode = .user) (h : Below s t) : Alike Below (step s) (step t) := by
  obtain ⟨m, rfl, hb⟩ := id h
  by_cases hr : s.run = .running
  · by_cases hd : timerDue s
    · rw [step_due hr hd, step_due (s := setMem m s) hr hd]
      exact interruptEntry_alike .timer h
    · rw [step_running hr hd, step_running (s := setMem m s) hr hd]
      have hmt : (timerTick s).mode = .user := (timerTick_mode s).trans hm
      refine (fetch_alike hmt (below_timerTick h)).andThen ?_
      rintro ⟨i, s'⟩ ⟨_, t'⟩ ⟨rfl, hb', hm'⟩
      exact exec_alike i hm' hb'
  · rw [step_stopped hr, step_stopped (s := setMem m s) hr]
    exact .inr ⟨_, _, rfl, rfl, h⟩

end Sys2Proof.Machine

open Sys2Proof Sys2Proof.Machine

/-- Settles O50: the timer phase, the fetch and every meaning are alike in the two machines, and so is their chain. -/
theorem userModeCannotReadSystemSpace : Obligations.UserModeCannotReadSystemSpace := by
  intro s t hm h
  exact sameOutcome_of_alike (step_alike hm (below_iff_sameBelow.2 h))

end

section
/-! PROOFS. The cycle (spec 40_cycle.md): the timer phase (R122), the fetch and its checks (R123 to R125), and no step
of a stopped machine (R129). -/

namespace Sys2Proof.Machine

open Sys2Proof.Claims

/-- Cells that decode to an instruction, the ones it needs readable: it is placed. -/
theorem placed_of_decode {s : State} {i : Instr} {rest : List Word} (hf : fetches s)
    (h : decode [opcodeCell s, operandCell s] = .ok (i, rest)) (hacc : operandOf i ≠ none → accessible s (s.pc + 1)) :
    Placed i s := by
  have hcells := decode_eq_ok h
  cases hi : operandOf i with
  | none =>
    simp only [encode, hi, Option.toList, List.cons_append, List.cons.injEq] at hcells
    exact ⟨hf, hcells.1, fun v hv => by simp [hi] at hv⟩
  | some w =>
    simp only [encode, hi, Option.toList, List.cons_append, List.nil_append, List.cons.injEq] at hcells
    obtain ⟨hop, hopnd, -⟩ := hcells
    refine ⟨hf, hop, fun v hv => ⟨?_, hacc (by simp [hi])⟩⟩
    rw [hopnd]
    exact Option.some.inj (hi.symm.trans hv)

/-- The format `A` opcodes of R102 are two-cell rows of the opcode map. -/
theorem decodeOpcode_of_mem_operandOpcodes {op : Word} (h : op.toInt ∈ operandOpcodes) :
    ∃ mk, decodeOpcode op = some (.one mk) := by
  have hop : op = BitVec.ofInt 32 op.toInt := (BitVec.ofInt_toInt).symm
  generalize op.toInt = n at h hop
  subst hop
  fin_cases h <;> exact ⟨_, rfl⟩

/-- A two-cell opcode whose operand may not be read ends the step at that read (R125). -/
theorem step_operand_refused {s : State} {mk : Word → Instr} (hf : fetches s)
    (hd : decodeOpcode (opcodeCell s) = some (.one mk)) (hb : ¬ accessible s (s.pc + 1)) :
    step s = .fault (refusedAccess (afterOpcode s) (s.pc + 1) (.read (s.pc + 1))) := by
  obtain ⟨hr, hdue, hacc⟩ := hf
  have hacc' : accessible (timerTick s) (timerTick s).pc := by rwa [timerTick_pc, accessible_timerTick]
  have hb' : ¬ accessible (timerTick s) ((timerTick s).pc + 1) := by rwa [timerTick_pc, accessible_timerTick]
  rw [step_running hr hdue, fetch_one_fault hacc' ((opcodeCell_timerTick s).symm ▸ hd) hb', andThen_fault,
    opcodeFetched_timerTick, timerTick_pc, accessFault_eq_refusedAccess]

end Sys2Proof.Machine

open Sys2Proof Sys2Proof.Machine Sys2Proof.Claims

/-- Settles O5: what decodes is placed, and a placed instruction dispatches. -/
theorem stepRunsTheDecodedInstruction : Obligations.StepRunsTheDecodedInstruction := by
  intro s i rest hf h
  constructor
  · intro hi
    rw [dispatches i s (placed_of_decode hf h fun hne => absurd hi hne), begun, if_pos hi]
  · intro hi hacc
    rw [dispatches i s (placed_of_decode hf h fun _ => hacc), begun, if_neg hi]

/-- Settles O6: the fetch begins with a checked read at `PC`, after the timer phase. -/
theorem opcodeFetchIsChecked : Obligations.OpcodeFetchIsChecked := by
  intro s hr hd hacc
  have hacc' : ¬ accessible (timerTick s) (timerTick s).pc := by rwa [timerTick_pc, accessible_timerTick]
  rw [step_running hr hd, fetch_fault hacc', andThen_fault, timerTick_pc, timerTick_eq, accessFault_eq_refusedAccess]

/-- Settles O7: a format `A` opcode is a two-cell row of the map, so its operand is read before it has a meaning. -/
theorem operandFetchComesFirst : Obligations.OperandFetchComesFirst := by
  intro s hf hop
  obtain ⟨mk, hmk⟩ := decodeOpcode_of_mem_operandOpcodes hop
  refine ⟨fun hacc => ?_, step_operand_refused hf hmk⟩
  obtain ⟨hcode, hopnd⟩ := decodeOpcode_one hmk (operandCell s)
  have hp : Placed (mk (operandCell s)) s :=
    ⟨hf, hcode.symm, fun v hv => ⟨Option.some.inj (hopnd.symm.trans hv), hacc⟩⟩
  refine ⟨mk (operandCell s), by rw [encode, hcode, hopnd]; rfl, ?_⟩
  rw [dispatches _ s hp, begun, if_neg (by simp [hopnd])]

/-- Settles O8: the three cases of the timer phase, by `IE` and by whether the timer is below its limit. -/
theorem timerPhaseComesFirst : Obligations.TimerPhaseComesFirst := by
  intro s hr
  refine ⟨fun hie hge => step_due hr ⟨hie, hge⟩, fun hie hlt => ⟨toInt_add_one_of_lt hlt, ?_⟩, fun hie => ?_⟩
  · rw [step_running hr fun hd => absurd hd.2 (by omega), timerTick_eq, if_pos hie]
  · rw [step_running hr fun hd => absurd hd.1 (by simp [hie]), timerTick_eq, if_neg (by simp [hie])]

/-- Settles O9: `cycle` looks at `run` first. -/
theorem noStepOnceStopped : Obligations.NoStepOnceStopped :=
  fun _ => ⟨step_stopped, fun _ hs => (step_eq_next hs).1⟩

end

section
/-! PROOFS. The access and stack primitives (spec 20_memory.md, R73 to R78), and the faults (60_exceptions.md, R212 to
R220). -/

namespace Sys2Proof.Machine

open Sys2Proof.Claims

/-- The permission check passes in Kernel mode, and below `USER_LIMIT` in either mode (R73). -/
theorem not_denied_iff {s : State} {a : Word} :
    ¬ denied s a ↔ s.mode = .kernel ∨ a.toInt < s.cfg.userLimit.toInt := by
  cases hm : s.mode <;> simp [denied, hm]

/-- An access the permission check refuses ends the run before its request is sent (R74). -/
theorem refusedAccess_of_denied {s : State} {a : Word} (h : denied s a) (r : BusRequest) :
    refusedAccess s a r = .fatal .protectionFault a { s with run := .faulted .protectionFault a } := if_pos h

/-- An access the permission check lets pass, refused all the same, ends the run with its request sent (R74). -/
theorem refusedAccess_of_not_denied {s : State} {a : Word} (h : ¬ denied s a) (r : BusRequest) :
    refusedAccess s a r = .fatal .boundsFault a { s with run := .faulted .boundsFault a, bus := s.bus ++ [r] } :=
  if_neg h

/-- Where an address is refused by the bounds check in a configuration that meets R9: below the array in either mode, or
past its end in Kernel mode, since User mode ends at `USER_LIMIT` inside it (R217). -/
theorem bounds_of_not_accessible {s : State} {a : Word} (hw : s.cfg.wf) (hd : ¬ denied s a) (hacc : ¬ accessible s a) :
    a.toInt < 0 ∨ s.mode = .kernel ∧ s.cfg.memorySize.toInt ≤ a.toInt := by
  obtain ⟨-, -, hlimit, -⟩ := hw
  have hb : ¬ inBounds s a := fun hb => hacc ⟨hd, hb⟩
  simp only [inBounds] at hb
  obtain hk | hlt := not_denied_iff.1 hd
  · by_cases hneg : a.toInt < 0
    · exact .inl hneg
    · exact .inr ⟨hk, by omega⟩
  · exact .inl (by omega)

end Sys2Proof.Machine

open Sys2Proof Sys2Proof.Machine Sys2Proof.Claims

/-- Settles O10: the two checks in their order, for a read and for a write. -/
theorem permissionThenBounds : Obligations.PermissionThenBounds := by
  intro s a v
  refine ⟨fun hm hlimit => ?_, fun hperm hout => ?_, fun hperm hlo hhi => ?_⟩
  · have hd : denied s a := ⟨hm, hlimit⟩
    rw [memRead_of_not_accessible fun h => h.1 hd, memWrite_of_not_accessible fun h => h.1 hd]
    simp only [accessFault_eq_refusedAccess, refusedAccess_of_denied hd, and_self]
  · have hd : ¬ denied s a := not_denied_iff.2 hperm
    have hacc : ¬ accessible s a := by
      rintro ⟨-, hlo, hhi⟩
      omega
    rw [memRead_of_not_accessible hacc, memWrite_of_not_accessible hacc]
    simp only [accessFault_eq_refusedAccess, refusedAccess_of_not_denied hd, and_self]
  · have hacc : accessible s a := ⟨not_denied_iff.2 hperm, hlo, hhi⟩
    exact ⟨memRead_of_accessible hacc, _, memWrite_of_accessible hacc, rfl, stored_write s.mem a v⟩

/-- Settles O12: a push is a write one cell lower with `SP` already moved, a pop is a read before `SP` moves. -/
theorem pushAndPopPrimitives : Obligations.PushAndPopPrimitives := by
  intro s v
  exact ⟨fun ha => ⟨_, push_of_accessible ha, rfl, stored_write s.mem (s.sp - 1) v⟩, push_of_not_accessible,
    pop_of_accessible, pop_of_not_accessible⟩

/-- Settles O51: a step ends the run at an access that is not allowed, whose fault is told by the two checks, or at a
cell that the opcode map does not have. -/
theorem faultsByMode : Obligations.FaultsByMode := by
  intro s final kind info hw h
  obtain ⟨-, -, ⟨u, a, r, hq, hacc, hf⟩ | ⟨u, -, -, hdec, rfl, rfl, -⟩⟩ := step_fatal_cases hw h
  · obtain ⟨hkind, rfl, -, -⟩ := accessFault_fatal hf.symm
    have hdenied : denied u info ↔ denied s info := by simp only [denied, hq.mode, hq.cfg]
    rw [hdenied] at hkind
    obtain ⟨rfl, hd⟩ | ⟨rfl, hd⟩ := hkind
    · exact ⟨nofun, fun hk => absurd hd (not_denied_of_kernel hk _), fun _ => hd, nofun, nofun⟩
    · exact ⟨nofun, fun _ => .inl rfl, nofun, fun _ => bounds_of_not_accessible hw hd hacc, nofun⟩
  · exact ⟨nofun, fun _ => .inr rfl, nofun, nofun, fun _ => ⟨rfl, decodeOpcode_none.1 hdec⟩⟩

/-- Settles O52: up to the raise only registers, the timer and the bus trace have changed. -/
theorem faultsChangeNoMemory : Obligations.FaultsChangeNoMemory := by
  intro s final kind info hw h
  obtain ⟨-, -, ⟨u, a, r, hq, -, hf⟩ | ⟨u, hq, -, -, -, -, rfl⟩⟩ := step_fatal_cases hw h
  · obtain ⟨-, -, hrun, hq'⟩ := accessFault_fatal hf.symm
    obtain ⟨hmem, hmode, hie, hhandler, hcon, hdia, hcfg⟩ := hq.trans hq'
    exact ⟨hrun, hmem, hcon, hdia, hmode, hie, hhandler, hcfg⟩
  · obtain ⟨hmem, hmode, hie, hhandler, hcon, hdia, hcfg⟩ := hq
    exact ⟨rfl, hmem, hcon, hdia, hmode, hie, hhandler, hcfg⟩

end

section
/-! PROOFS. Loads, the store, input and output, and arithmetic (spec 41_load_store.md, 42_random_output.md,
43_alu_moves.md). -/

namespace Sys2Proof.Machine

open Sys2Proof.Claims

/-- The four loads of one cell are `loadAc` of their effective address (R147). -/
theorem exec_of_loadAddress {i : Instr} {s : State} {ea : Word} (h : loadAddress i s = some ea) :
    exec i s = loadAc ea (cellCount i) s := by
  cases i <;> cases h <;> rfl

/-- A step that fetches the one cell of an instruction executes it. -/
theorem step_of_encode_eq_singleton {i : Instr} {s : State} (hf : fetches s) (h : encode i = [opcodeCell s]) :
    step s = exec i (afterOpcode s) := by
  obtain ⟨hop, hi⟩ : opcodeOf i = opcodeCell s ∧ operandOf i = none := by simpa [encode] using h
  rw [dispatches i s ⟨hf, hop.symm, fun v hv => by simp [hi] at hv⟩, begun, if_pos hi]

/-- The sum of two cells is the sum of their signed values, reduced (R167). -/
theorem ofInt_toInt_add_toInt (a b : Word) : BitVec.ofInt 32 (a.toInt + b.toInt) = a + b :=
  BitVec.eq_of_toInt_eq (by rw [BitVec.toInt_ofInt, BitVec.toInt_add])

/-- The difference of two cells is the difference of their signed values, reduced (R167). -/
theorem ofInt_toInt_sub_toInt (a b : Word) : BitVec.ofInt 32 (a.toInt - b.toInt) = a - b :=
  BitVec.eq_of_toInt_eq (by rw [BitVec.toInt_ofInt, BitVec.toInt_sub])

end Sys2Proof.Machine

open Sys2Proof Sys2Proof.Machine Sys2Proof.Claims

/-- Settles O15: each is one checked read at the address formed, then `AC` and `PC`. -/
theorem loadsReadTheirEffectiveAddress : Obligations.LoadsReadTheirEffectiveAddress := by
  refine ⟨fun a => ⟨rfl, rfl, rfl⟩, rfl, fun i s ea hea => ⟨dispatches i, fun hacc => ?_, fun hacc => ?_⟩⟩
  · rw [exec_of_loadAddress hea, loadAc_of_accessible _ hacc]
  · rw [exec_of_loadAddress hea, loadAc_of_not_accessible _ hacc]

/-- Settles O18: after the store `PC` is at the cell written, which the next fetch reads. -/
theorem storeIsSeenByTheNextFetch : Obligations.StoreIsSeenByTheNextFetch := by
  intro s i hr hd hacc henc
  refine ⟨_, exec_store_of_accessible hacc, step_of_encode_eq_singleton ⟨hr, hd, hacc⟩ ?_⟩
  rw [henc, opcodeCell, Memory.read_write_same]

/-- Settles O19: the draw is in range, whatever it is. -/
theorem getDrawsInRange : Obligations.GetDrawsInRange := by
  refine ⟨rfl, dispatches .get, fun s => ⟨drawValue s.drawCount, ?_⟩⟩
  exact ⟨(drawValue_range _).1, (drawValue_range _).2, rfl⟩

/-- Settles O20: the port chooses the stream and the event. -/
theorem putPrintsOrReports : Obligations.PutPrintsOrReports := by
  intro port s
  have hexec : exec (.put port) s = .next (executed (.put port) s) := exec_of_accesses_eq_nil rfl nofun
  refine ⟨rfl, dispatches _, ?_, ?_, fun h1 h2 => ?_⟩
  · rintro rfl
    rw [hexec]
    simp [executed]
  · rintro rfl
    rw [hexec]
    simp [executed]
  · rw [hexec, executed]
    simp only [if_neg h1, if_neg h2, if_neg (not_or.2 ⟨h1, h2⟩), List.append_nil]

/-- Settles O21: the sum and the difference of cells are those of their signed values, reduced. -/
theorem arithmeticWraps : Obligations.ArithmeticWraps := by
  refine ⟨⟨rfl, rfl, rfl, rfl, rfl, rfl⟩, fun i _ => dispatches i, fun s => ?_⟩
  have hinc := ofInt_toInt_add_toInt s.x 1
  have hdec := ofInt_toInt_sub_toInt s.x 1
  rw [show (1 : Word).toInt = 1 from rfl] at hinc hdec
  rw [ofInt_toInt_add_toInt, ofInt_toInt_add_toInt, ofInt_toInt_sub_toInt, ofInt_toInt_sub_toInt, hinc, hdec]
  refine ⟨?_, ?_, ?_, ?_, ?_, ?_⟩ <;> exact exec_of_accesses_eq_nil rfl nofun

end

section
/-! PROOFS. Control transfer and the stack instructions (spec 44_control.md, 45_stack.md). -/

namespace Sys2Proof.Machine

open Sys2Proof.Claims

/-! ### The meanings, as a stack primitive and an update -/

theorem exec_call (a : Word) (s : State) :
    exec (.call a) s = andThen (push (s.pc + 2) s) fun s1 => .next (transfer a s1) := rfl

theorem exec_ret (s : State) : exec .ret s = andThen (pop s) fun r => .next (transfer r.1 r.2) := rfl

theorem exec_push (s : State) : exec .push s = andThen (push s.ac s) fun s1 => .next (advance 1 s1) := rfl

theorem exec_pop (s : State) : exec .pop s = andThen (pop s) fun r => .next (advance 1 (setAc r.1 r.2)) := rfl

end Sys2Proof.Machine

open Sys2Proof Sys2Proof.Machine Sys2Proof.Claims

/-- Settles O23: the jumps access no memory; the two conditional ones look at `AC`. -/
theorem jumpsSetPcAlone : Obligations.JumpsSetPcAlone := by
  intro a s
  refine ⟨⟨rfl, rfl, rfl⟩, fun i _ => dispatches i, rfl, exec_of_accesses_eq_nil rfl nofun, ?_⟩
  simp only [ite_not]
  exact exec_of_accesses_eq_nil rfl nofun

/-- Settles O24: a push of `p + 2`, and then the jump where it succeeded. -/
theorem callPushesTheReturnAddress : Obligations.CallPushesTheReturnAddress := by
  intro a s
  refine ⟨rfl, dispatches _, fun hacc => ?_, fun hacc => ?_⟩
  · exact ⟨_, exec_of_accessible (by simpa [accesses] using hacc) nofun, rfl, stored_write s.mem _ _⟩
  · rw [exec_call, push_of_not_accessible hacc, andThen_fault, accessFault_eq_refusedAccess]; rfl

/-- Settles O25: a pop, and then `PC` where it succeeded. -/
theorem retPopsPc : Obligations.RetPopsPc := by
  intro s
  refine ⟨rfl, dispatches _, fun hacc => exec_of_accessible (by simpa [accesses] using hacc) nofun, fun hacc => ?_⟩
  rw [exec_ret, pop_of_not_accessible hacc, andThen_fault, accessFault_eq_refusedAccess]

/-- Settles O26: the return reads the cell that the call's push was allowed to write. -/
theorem retReturnsAfterTheCall : Obligations.RetReturnsAfterTheCall := by
  intro a s t u hcall hm hc hsp hcell
  obtain ⟨hacc, rfl⟩ := exec_eq_next hcall
  have hu : accessible u u.sp := by
    rw [hsp, accessible_congr hm hc]
    exact hacc _ (by simp [accesses, executed])
  refine ⟨_, exec_of_accessible (by simpa [accesses] using hu) nofun, ?_, ?_⟩
  · show u.mem.read u.sp.toNat = s.pc + 2
    rw [hsp, hcell]
    exact Memory.read_write_same ..
  · show u.sp + 1 = s.sp
    rw [hsp]
    exact BitVec.sub_add_cancel ..

/-- Settles O27: a push of `AC`, and then the advance where it succeeded. -/
theorem pushStoresAc : Obligations.PushStoresAc := by
  intro s
  refine ⟨rfl, dispatches _, fun hacc => ?_, fun hacc => ?_⟩
  · exact ⟨_, exec_of_accessible (by simpa [accesses] using hacc) nofun, rfl, stored_write s.mem _ _⟩
  · rw [exec_push, push_of_not_accessible hacc, andThen_fault, accessFault_eq_refusedAccess]; rfl

/-- Settles O28: a pop, and then `AC` and `PC` where it succeeded. -/
theorem popLoadsAc : Obligations.PopLoadsAc := by
  intro s
  refine ⟨rfl, dispatches _, fun hacc => exec_of_accessible (by simpa [accesses] using hacc) nofun, fun hacc => ?_⟩
  rw [exec_pop, pop_of_not_accessible hacc, andThen_fault, accessFault_eq_refusedAccess]

end

section
/-! PROOFS. Interrupts and the system instructions (spec 46_system.md, R185 to R187; 60_exceptions.md, R203 to R211,
R232): entry, the return pop by pop, and the return that finds the frame of an entry. -/

namespace Sys2Proof.Machine

open Sys2Proof.Claims

/-! ### Entry -/

/-- A due timer is taken in every configuration that meets R9. -/
theorem step_of_timerDue {s : State} (hw : s.cfg.wf) (hr : s.run = .running) (hd : timerDue s) :
    step s = .next (entered .timer s) := by
  rw [step_due hr hd, interruptEntry_of_wf .timer hw]

/-- `Int` is taken in every configuration that meets R9. -/
theorem exec_int_of_wf {s : State} (hw : s.cfg.wf) : exec .int s = .next (entered .trap s) :=
  interruptEntry_of_wf .trap hw

/-! ### The return, pop by pop (R186) -/

theorem exec_iret (s : State) : exec .iret s = interruptReturn s := rfl

/-- Before the first pop nothing is restored. -/
theorem poppedSoFar_zero (s : State) : poppedSoFar 0 s = s := by
  simp [poppedSoFar]

/-- The register that the `k`-th pop of a return restores at once; `PC` and `SP` are written at the end. -/
def restore (k : Nat) (v : Word) (s : State) : State :=
  match k with
  | 0 => setY v s
  | 1 => setX v s
  | 2 => setAc v s
  | 3 => setIr v s
  | _ => s

theorem restore_sp (k : Nat) (v : Word) (s : State) : (restore k v s).sp = s.sp := by
  unfold restore; split <;> rfl

theorem restore_bus (k : Nat) (v : Word) (s : State) : (restore k v s).bus = s.bus := by
  unfold restore; split <;> rfl

/-- Any number of pops reads with the checks of the mode and the configuration before them. -/
theorem accessible_poppedSoFar {j : Nat} {s : State} {a : Word} : accessible (poppedSoFar j s) a ↔ accessible s a :=
  accessible_congr rfl rfl a

/-- A pop of the return that is allowed takes the cell `k` above `SP`, and with its register restored the return is one
pop further. -/
theorem pop_poppedSoFar {k : Nat} {s : State} (hacc : accessible s (s.sp + BitVec.ofNat 32 k)) :
    ∃ t, pop (poppedSoFar k s) = .next (stackCell s k, t) ∧ restore k (stackCell s k) t = poppedSoFar (k + 1) s := by
  refine ⟨_, pop_of_accessible (accessible_poppedSoFar.2 hacc), ?_⟩
  apply State.ext
  case sp => rw [restore_sp]; exact add_add_one s.sp rfl
  case bus => simp [restore_bus, poppedSoFar, List.range_succ]
  all_goals obtain _ | _ | _ | _ | k := k <;> simp [restore, poppedSoFar]

/-- A return whose pop `j` is refused ends the run there, the registers of the pops before it restored. -/
theorem interruptReturn_refused {j : Nat} {s : State} (hj : j < 6)
    (hacc : ∀ k < j, accessible s (s.sp + BitVec.ofNat 32 k)) (hno : ¬ accessible s (s.sp + BitVec.ofNat 32 j)) :
    interruptReturn s = .fault (refusedAccess (poppedSoFar j s) (s.sp + BitVec.ofNat 32 j)
      (.read (s.sp + BitVec.ofNat 32 j))) := by
  have stop : pop (poppedSoFar j s) = .fault (refusedAccess (poppedSoFar j s) (s.sp + BitVec.ofNat 32 j)
      (.read (s.sp + BitVec.ofNat 32 j))) := pop_of_not_accessible (mt accessible_poppedSoFar.1 hno)
  have go : ∀ k < j, ∃ t, pop (poppedSoFar k s) = .next (stackCell s k, t) ∧
      restore k (stackCell s k) t = poppedSoFar (k + 1) s := fun k hk => pop_poppedSoFar (hacc k hk)
  unfold interruptReturn
  rw [← congrArg pop (poppedSoFar_zero s)]
  obtain _ | j := j
  · rw [stop, andThen_fault]
  obtain ⟨t0, h0, e0⟩ := go 0 (by omega)
  rw [h0, andThen_next, show setY _ t0 = _ from e0]
  obtain _ | j := j
  · rw [stop, andThen_fault]
  obtain ⟨t1, h1, e1⟩ := go 1 (by omega)
  rw [h1, andThen_next, show setX _ t1 = _ from e1]
  obtain _ | j := j
  · rw [stop, andThen_fault]
  obtain ⟨t2, h2, e2⟩ := go 2 (by omega)
  rw [h2, andThen_next, show setAc _ t2 = _ from e2]
  obtain _ | j := j
  · rw [stop, andThen_fault]
  obtain ⟨t3, h3, e3⟩ := go 3 (by omega)
  rw [h3, andThen_next, show setIr _ t3 = _ from e3]
  obtain _ | j := j
  · rw [stop, andThen_fault]
  obtain ⟨t4, h4, e4⟩ := go 4 (by omega)
  rw [h4, andThen_next, show t4 = _ from e4]
  obtain _ | j := j
  · rw [stop, andThen_fault]
  omega

/-! ### The return that finds a frame -/

/-- The cells above `SP` at the foot of the frame are cells of the frame, `6 - k` below the top of memory. -/
theorem add_frame_address {k : Nat} (a : Word) (hk : k ≤ 6) :
    a - 6 + BitVec.ofNat 32 k = a - BitVec.ofNat 32 (6 - k) := by
  interval_cases k <;> bv_omega

/-- In Kernel mode the whole frame may be read. -/
theorem accessible_frame {u : State} (hw : u.cfg.wf) (hm : u.mode = .kernel) (hsp : u.sp = u.cfg.memorySize - 6) :
    ∀ k < 6, accessible u (u.sp + BitVec.ofNat 32 k) := by
  intro k hk
  have h6 := hw.1
  refine ⟨not_denied_of_kernel hm _, ?_⟩
  rw [inBounds, hsp, add_frame_address _ hk.le, frame_inBounds hw (by omega)]
  omega

/-- A return from the foot of a frame pops what the frame holds. -/
theorem stackCell_of_frameHolds {s u : State} (hw : s.cfg.wf) (hsp : u.sp = s.cfg.memorySize - 6)
    (hf : FrameHolds s u.mem) :
    stackCell u 0 = s.y ∧ stackCell u 1 = s.x ∧ stackCell u 2 = s.ac ∧ stackCell u 3 = s.ir ∧ stackCell u 4 = s.pc ∧
      stackCell u 5 = s.sp := by
  have hkey : ∀ k < 6, (u.sp + BitVec.ofNat 32 k).toNat = s.cfg.memorySize.toNat - (6 - k) := by
    intro k hk
    rw [hsp, add_frame_address _ hk.le, frame_toNat hw (by omega)]
  obtain ⟨h1, h2, h3, h4, h5, h6⟩ := hf
  refine ⟨?_, ?_, ?_, ?_, ?_, ?_⟩ <;> rw [stackCell, hkey _ (by decide)] <;> assumption

/-- What a return leaves, in the words of the statements. -/
theorem returned_eq (s : State) : returned s = { s with
    y := stackCell s 0
    x := stackCell s 1
    ac := stackCell s 2
    ir := stackCell s 3
    pc := if s.handler = some .trap then stackCell s 4 + 1 else stackCell s 4
    sp := stackCell s 5
    mode := .user
    ie := true
    handler := none
    bus := s.bus ++ (List.range 6).map fun k => .read (s.sp + BitVec.ofNat 32 k) } := by
  simp [returned, stackCell, List.range_succ]

/-- Memories that agree on the top six cells hold the same frame. -/
theorem frameHolds_congr {s : State} {m m' : Memory} (hw : s.cfg.wf) (h : FrameHolds s m)
    (heq : ∀ a : Nat, s.cfg.memorySize.toInt - 6 ≤ a → (a : Int) < s.cfg.memorySize.toInt → m'.read a = m.read a) :
    FrameHolds s m' := by
  have h6 := hw.1
  have hn := memorySize_toNat hw
  obtain ⟨h1, h2, h3, h4, h5, h6'⟩ := h
  refine ⟨?_, ?_, ?_, ?_, ?_, ?_⟩ <;> rw [heq _ (by omega) (by omega)] <;> assumption

end Sys2Proof.Machine

open Sys2Proof Sys2Proof.Machine Sys2Proof.Claims

/-- Settles O29: in a configuration that meets R9 the six pushes are in the array, so the entry answers. -/
theorem interruptEntryBuildsTheFrame : Obligations.InterruptEntryBuildsTheFrame := by
  intro s hw
  exact ⟨fun hr hd => ⟨_, step_of_timerDue hw hr hd, entered_spec .timer hw⟩,
    rfl, dispatches .int, _, exec_int_of_wf hw, entered_spec .trap hw⟩

/-- Settles O30: six pops in order, each allowed or the end of the run. -/
theorem iretRestoresTheFrame : Obligations.IretRestoresTheFrame := by
  intro s
  refine ⟨rfl, dispatches .iret, fun hacc => ?_, fun j hj => interruptReturn_refused hj⟩
  rw [exec_iret, interruptReturn_of_accessible hacc, returned_eq]

/-- Settles O31: the return pops the frame of the entry, from the cells it left. -/
theorem trapContextIntegrity : Obligations.TrapContextIntegrity := by
  intro kind s t u hw htimer htrap hcfg hm hh hsp hcells
  have ht : t = entered kind s := by
    cases kind with
    | timer =>
      obtain ⟨hr, hd, hs⟩ := htimer rfl
      rw [step_of_timerDue hw hr hd] at hs
      exact (Host.Outcome.next.inj hs).symm
    | trap =>
      have hs := htrap rfl
      rw [exec_int_of_wf hw] at hs
      exact (Host.Outcome.next.inj hs).symm
  subst ht
  have hf : FrameHolds s u.mem := frameHolds_congr hw (frameHolds_frameWrites hw) hcells
  have hc : u.cfg = s.cfg := hcfg
  have hacc := accessible_frame (u := u) (hc ▸ hw) hm (hc ▸ hsp)
  obtain ⟨hy, hx, hac, hir, hpc, hsp'⟩ := stackCell_of_frameHolds hw hsp hf
  refine ⟨_, interruptReturn_of_accessible hacc, ?_⟩
  rw [returned_eq, hy, hx, hac, hir, hpc, hsp', hh]
  cases kind <;> exact ⟨rfl, rfl, rfl, rfl, rfl, rfl, rfl, rfl, rfl⟩

/-- Settles O32: `Terminate` is sent and `run` written, and nothing else. -/
theorem endHaltsTheMachine : Obligations.EndHaltsTheMachine :=
  fun _ => ⟨rfl, dispatches .halt, rfl⟩

/-- Settles O48: the timer, cleared by the entry, is due again as soon as the return has enabled interrupts. -/
theorem nonPositiveConstraintIsAStorm : Obligations.NonPositiveConstraintIsAStorm := by
  intro s hw hr hie hk htimer
  refine ⟨_, step_of_timerDue hw hr ⟨hie, by omega⟩, entered_spec .timer hw, ?_⟩
  intro u v hcfg hrun htimer' hm hh hsp hf hv
  obtain ⟨-, rfl⟩ := exec_eq_next hv
  have hc : u.cfg = s.cfg := hcfg
  have hw' : (executed .iret u).cfg.wf := by rw [executed_cfg, hc]; exact hw
  have hdue : timerDue (executed .iret u) := by
    refine ⟨rfl, ?_⟩
    rw [executed_cfg, executed_timer, hc, htimer']
    exact hk
  obtain ⟨-, -, -, -, hpc, -⟩ := stackCell_of_frameHolds hw hsp hf
  refine ⟨_, step_of_timerDue hw' hrun hdue, entered_spec .timer hw', ?_⟩
  show (returned u).pc = s.pc
  rw [returned_eq, hpc, hh]
  rfl

end
